-- ==== Sys2Proof/Word.lean ====
section
/-! DEFINITION. The word types of the block (spec/00_scope.md rules R10, R11). -/

namespace Sys2Proof

/-- One byte: a sample, a `level`, a slot number (R21, R33, R91). -/
abbrev Byte := BitVec 8

/-- One 32-bit word of the command port or of the register space (R68, R69). -/
abbrev Word := BitVec 32

/-- A 16-bit field: envelope rates, coordinates, register addresses (R34, R42, R91). -/
abbrev Half16 := BitVec 16

/-- A 7-bit gain field; its legal values are 0..64 (R28, R29). -/
abbrev Gain := BitVec 7

end Sys2Proof
end

