-- ==== Sys2Proof/Config.lean ====
section
/-! DEFINITION. What one instance of the block fixes (spec/00_scope.md rule R9), and the one value the
spec leaves free (spec/93_implementation_defined.md U3). -/

namespace Sys2Proof.Config

/-- The four parameters of R9 that are no table size. DESIGN CHOICE (log entry 1): State carries them, so that
a statement about every state is a statement about every instance of the block. Safe. -/
structure Consts where
  /-- `SPF`, samples per frame. -/
  spf : Nat
  /-- `MIX_RATE`, the output sample rate in Hz. -/
  mixRate : Nat
  /-- `SEMI_UP`, the ascending per-semitone ratio, Q16. -/
  semiUp : Nat
  /-- `SEMI_DOWN`, the descending per-semitone ratio, Q16. -/
  semiDown : Nat
deriving DecidableEq, Repr

/-- All parameters of R9: the table sizes `NV`, `NI`, `NS`, `NL` and the constants. -/
structure Params where
  /-- `NV`, number of voice slots. -/
  nv : Nat
  /-- `NI`, number of instrument records. -/
  ni : Nat
  /-- `NS`, number of positional sources. -/
  ns : Nat
  /-- `NL`, number of spatialization table entries. -/
  nl : Nat
  consts : Consts
deriving DecidableEq, Repr

/-- The defaults that R9 gives. -/
def Consts.default : Consts where
  spf := 303
  mixRate := 18157
  semiUp := 69433
  semiDown := 61858

/-- The defaults that R9 gives. -/
def Params.default : Params where
  nv := 8
  ni := 16
  ns := 2
  nl := 64
  consts := Consts.default

/-- The constraint column of R9, for the constants. -/
abbrev Consts.wf (c : Consts) : Prop :=
  1 ≤ c.spf ∧ c.spf ≤ 65535 ∧ 1 ≤ c.mixRate ∧ c.mixRate ≤ 2 ^ 24 - 1 ∧ 65536 < c.semiUp ∧ c.semiDown < 65536

/-- The constraint column of R9, for the table sizes. -/
abbrev sizesWf (nv ni ns nl : Nat) : Prop :=
  (1 ≤ nv ∧ nv ≤ 256) ∧ (1 ≤ ni ∧ ni ≤ 256) ∧ (1 ≤ ns ∧ ns ≤ 256) ∧ (1 ≤ nl ∧ nl ≤ 4096)

/-- The constraint column of R9. -/
abbrev Params.wf (p : Params) : Prop :=
  sizesWf p.nv p.ni p.ns p.nl ∧ p.consts.wf

/-- FREE VALUE (log entry 5): the byte the platform returns for a sample address it has not populated, "any
value, fixed for the run" (93 U3, 20_memory R61). No body: nothing can be proved of what it is. -/
opaque unpopulatedSample : Word → Byte

end Sys2Proof.Config
end

