-- ==== Sys2Proof/Machine/State.lean ====
section
/-! DEFINITION. The state of the block (spec/10_state.md), as plain data, and its reset
(spec/70_reset_and_hazards.md rule R321). -/

namespace Sys2Proof.Machine

open Sys2Proof

/-- The envelope phase, `phase` of R32. -/
inductive Phase where
  | attack
  | decay
  | sustain
  | release
deriving DecidableEq, Repr

/-- The encoding of `phase` (R32): 0 Attack, 1 Decay, 2 Sustain, 3 Release. -/
def Phase.code : Phase → BitVec 2
  | .attack => 0
  | .decay => 1
  | .sustain => 2
  | .release => 3

/-- `facing` of R43: Front is A, Back is B (R16). -/
inductive Facing where
  | front
  | back
deriving DecidableEq, Repr

/-- The encoding of `facing` (R43): 0 Front, 1 Back. -/
def Facing.code : Facing → BitVec 1
  | .front => 0
  | .back => 1

/-- One voice record (R22 to R36). -/
structure Voice where
  /-- R22 -/
  active : Bool
  /-- R23 -/
  base : Word
  /-- R24, UQ20.12 -/
  position : Word
  /-- R25, UQ20.12 -/
  increment : Word
  /-- R26, UQ20.12 -/
  length : Word
  /-- R27, UQ20.12 -/
  loopLength : Word
  /-- R28 -/
  volume : Gain
  /-- R29 -/
  panLeft : Gain
  /-- R29 -/
  panRight : Gain
  /-- `env_en`, R30 -/
  envEn : Bool
  /-- R31 -/
  sounding : Bool
  /-- R32 -/
  phase : Phase
  /-- R33 -/
  level : Byte
  /-- R34 -/
  attack : Half16
  /-- R34 -/
  decay : Half16
  /-- R35 -/
  sustainLevel : Byte
  /-- R34 -/
  release : Half16
deriving DecidableEq, Repr

/-- The mixer mode register `CTRL` (R37). Bits 31:3 hold nothing; bit 2 is `Ctrl.hrtf`. -/
structure Ctrl where
  /-- `INTERP` -/
  interp : Bool
  /-- `STEREO` -/
  stereo : Bool
deriving DecidableEq, Repr

/-- `CTRL.HRTF`, hardwired 0: the shaping stage is not built (R37, R176, 93 U11). -/
def Ctrl.hrtf (_ : Ctrl) : Bool := false

/-- One instrument record (R40). -/
structure Instrument where
  base : Word
  nsamples : BitVec 20
  loopStart : BitVec 20
  nativeRate : BitVec 24
  attack : Half16
  decay : Half16
  sustainLevel : Byte
  release : Half16
deriving DecidableEq, Repr

/-- One positional source: its configuration registers (R42) and its state (R43). -/
structure Source where
  /-- `EN` -/
  en : Bool
  /-- `LUTMODE` -/
  lutMode : Bool
  /-- `FBSEL` -/
  fbSel : Bool
  vA : Byte
  vB : Byte
  /-- signed -/
  cx : Half16
  /-- signed -/
  cy : Half16
  hx : Half16
  hy : Half16
  /-- signed -/
  swFront : Half16
  /-- signed -/
  swBack : Half16
  maxVol : Gain
  fBase : Word
  fLen : Word
  fLoop : Word
  fInc : Word
  bBase : Word
  bLen : Word
  bLoop : Word
  bInc : Word
  nb : Byte
  lutBase : Half16
  /-- signed, state -/
  x : Half16
  /-- signed, state -/
  y : Half16
  /-- state -/
  facing : Facing
  /-- state; 0xFF is "none yet" -/
  bucket : Byte
deriving DecidableEq, Repr

/-- One spatialization table entry (R44). -/
structure LutEntry where
  baseL : Word
  baseR : Word
deriving DecidableEq, Repr

/-- A Present event (R223): the half now live and the two base addresses in the output buffer memory. -/
structure Present where
  half : Bool
  baseL : Nat
  baseR : Nat
deriving DecidableEq, Repr

/-- What may arrive at the block next (R6, R7). The model's own type: DESIGN CHOICE, log entry 2. Safe. -/
inductive Input where
  /-- A word on the command port (R69, R95). -/
  | word (w : Word)
  /-- A `TICK` pulse (R94, R221). -/
  | tick
  /-- A `TICK` pulse and a command word at the same moment (R297). -/
  | tickAndWord (w : Word)
  /-- The reset input (R320). -/
  | reset
deriving DecidableEq, Repr

/-- A byte memory as (address, byte) pairs in canonical form: see `Memory.wf`. -/
abbrev Memory := List Host.Cell

/-- The state of the block (R20), with the model's own fields `consts`, `samples`, `inputs`, `presented`. -/
structure State where
  /-- The constants of this instance (R9); the model's own field, log entry 1. -/
  consts : Config.Consts
  /-- The bytes of the sample memory the platform has populated (R60, R61); the model's own field, log entry 5. -/
  samples : List Host.Cell
  /-- The voice table (R21); its length is `NV`. -/
  voices : List Voice
  /-- The mixer mode register (R37). -/
  ctrl : Ctrl
  /-- The live half (R38): `false` is half 0, `true` is half 1. -/
  live : Bool
  /-- The output buffer memory (R39). -/
  buffer : Memory
  /-- The instrument table (R40); its length is `NI`. -/
  instruments : List Instrument
  /-- The positional source table (R41); its length is `NS`. -/
  sources : List Source
  /-- The spatialization table (R44); its length is `NL`. -/
  lut : List LutEntry
  /-- The command assembler (R48): the words of a packet that has started and not finished. -/
  openPacket : List Word
  /-- What will still arrive, in order (R14); the model's own field, log entry 2. -/
  inputs : List Input
  /-- The Present events emitted so far, oldest first (R223); the model's own field, log entry 7. -/
  presented : List Present
deriving DecidableEq, Repr

/-- Why a step stops with a fault. No constructor: "The block raises no exception, no trap and no fault"
(60_exceptions R290, log entry 15). Safe. -/
inductive Fault where
deriving DecidableEq, Repr

/-- Why a request is refused. -/
inductive Refusal where
  /-- Raised by an arm of `exec` whose command has no meaning yet; no arm is one. Safe. -/
  | notModelled (mnemonic : String)
  /-- Raised by `sinkRead`, never by a step: a sink read at or beyond byte `4 x SPF` of the output buffer
  memory is outside the memory and outside the sink's contract (20_memory R67, 93 U4). Safe. -/
  | sinkReadOutside (addr : Nat)
deriving DecidableEq, Repr

/-! ### Table sizes (R9): the parameters `NV`, `NI`, `NS`, `NL` -/

/-- `NV` -/
def State.nv (s : State) : Nat := s.voices.length

/-- `NI` -/
def State.ni (s : State) : Nat := s.instruments.length

/-- `NS` -/
def State.ns (s : State) : Nat := s.sources.length

/-- `NL` -/
def State.nl (s : State) : Nat := s.lut.length

/-! ### Reset values (R321) -/

/-- A voice record after reset (R36, R321). -/
def Voice.reset : Voice where
  active := false
  base := 0
  position := 0
  increment := 0
  length := 0
  loopLength := 0
  volume := 0
  panLeft := 0
  panRight := 0
  envEn := false
  sounding := false
  phase := .attack
  level := 0
  attack := 0
  decay := 0
  sustainLevel := 0
  release := 0

/-- `CTRL` after reset (R37, R321): Nearest fetch, two channels. -/
def Ctrl.reset : Ctrl where
  interp := false
  stereo := true

/-- An instrument record after reset (R40, R321). -/
def Instrument.reset : Instrument where
  base := 0
  nsamples := 0
  loopStart := 0
  nativeRate := 0
  attack := 0
  decay := 0
  sustainLevel := 0
  release := 0

/-- A source after reset (R42, R43, R321). -/
def Source.reset : Source where
  en := false
  lutMode := false
  fbSel := false
  vA := 0
  vB := 0
  cx := 0
  cy := 0
  hx := 1
  hy := 1
  swFront := 0
  swBack := 0
  maxVol := 0
  fBase := 0
  fLen := 0
  fLoop := 0
  fInc := 0
  bBase := 0
  bLen := 0
  bLoop := 0
  bInc := 0
  nb := 1
  lutBase := 0
  x := 0
  y := 0
  facing := .front
  bucket := 0xFF

/-- A table entry after reset (R44, R321). -/
def LutEntry.reset : LutEntry where
  baseL := 0
  baseR := 0

/-- An instance of the block with parameters `p`, right after reset (R321), no sample byte populated, nothing
arriving and nothing presented. -/
def State.resetOf (p : Config.Params) : State where
  consts := p.consts
  samples := []
  voices := List.replicate p.nv Voice.reset
  ctrl := Ctrl.reset
  live := false
  buffer := []
  instruments := List.replicate p.ni Instrument.reset
  sources := List.replicate p.ns Source.reset
  lut := List.replicate p.nl LutEntry.reset
  openPacket := []
  inputs := []
  presented := []

/-- The block with the default parameters of R9, right after reset (R321). -/
def State.reset : State := State.resetOf Config.Params.default

end Sys2Proof.Machine
end

