-- ==== Sys2Proof/Machine/Operands.lean ====
section
/-! DEFINITION. The primitives of the spec's notation (spec/00_scope.md rule R12) and the reading of operands
and fields (spec/30_encoding.md rules R92, R97). `sext_N` is `BitVec.toInt`, `zext_N` is `BitVec.toNat`. -/

namespace Sys2Proof.Machine

open Sys2Proof

/-- `clamp(v, lo, hi)` of R12. -/
def clamp (v lo hi : Int) : Int :=
  if v < lo then lo else if hi < v then hi else v

/-- `tdiv(a, b)` of R12: the quotient truncated toward zero. -/
def tdiv (a b : Int) : Int :=
  if 0 ≤ a then a / b else -((-a) / b)

/-- `a >>a n` of R12: floor of `a / 2^n`. -/
def asr (a : Int) (n : Nat) : Int := a / 2 ^ n

/-- The search of `ceilLog2`: the least `k' ≥ k`, at most `fuel` further on, with `n ≤ 2^k'`. -/
def ceilLog2From (n : Nat) : Nat → Nat → Nat
  | 0, k => k
  | fuel + 1, k => if n ≤ 2 ^ k then k else ceilLog2From n fuel (k + 1)

/-- `ceil_log2(n)` of R12: the least `k` with `n ≤ 2^k`. -/
def ceilLog2 (n : Nat) : Nat := ceilLog2From n n 0

/-- `clampg(b)` of R12 and R97, as the number 0..64. -/
def clampg (b : Byte) : Nat := (clamp b.toInt 0 64).toNat

/-- A gain field of a packet or a register as it is stored (R97). -/
def gainOf (b : Byte) : Gain := BitVec.ofNat 7 (clampg b)

/-- `clamp8(v)` of R12. -/
def clamp8 (v : Int) : Int := clamp v (-128) 127

/-- An increment as it is stored: 0 becomes 1 (R25). -/
def incrementOf (inc : Word) : Word := if inc = 0 then 1 else inc

/-! ### Bit fields of a register's written value (R40, R42) -/

/-- `value[7:0]` -/
def lowByte (value : Word) : Byte := value.extractLsb' 0 8

/-- `value[15:8]` -/
def secondByte (value : Word) : Byte := value.extractLsb' 8 8

/-- `value[15:0]` -/
def lowHalf (value : Word) : Half16 := value.extractLsb' 0 16

/-- `value[31:16]` -/
def highHalf (value : Word) : Half16 := value.extractLsb' 16 16

/-- `value[23:8]` -/
def middleHalf (value : Word) : Half16 := value.extractLsb' 8 16

/-- `value[19:0]` -/
def low20 (value : Word) : BitVec 20 := value.extractLsb' 0 20

/-- `value[23:0]` -/
def low24 (value : Word) : BitVec 24 := value.extractLsb' 0 24

/-- A half-extent as it is stored: `max(value, 1)` (R42, R273). -/
def extentOf (v : Half16) : Half16 := if v = 0 then 1 else v

/-- A bucket count as it is stored: `clamp(value, 1, 128)` (R42, R273). -/
def bucketCountOf (b : Byte) : Byte := BitVec.ofNat 8 (min (max b.toNat 1) 128)

end Sys2Proof.Machine
end

