-- ==== Sys2Proof/Machine/Ops.lean ====
section
/-! DEFINITION. The shared operations: updates of State's fields, the two memories (spec/20_memory.md), the
three micro-operations of spec/40_voice.md rule R120, and the reset input (spec/70_reset_and_hazards.md R320).
The spec has no exception entry and no return from one (60_exceptions R290, R298, R299), so there is no such
operation here. -/

namespace Sys2Proof.Machine

open Sys2Proof

/-! ### Updates of one field -/

def State.setVoices (s : State) (vs : List Voice) : State := { s with voices := vs }
def State.setCtrl (s : State) (c : Ctrl) : State := { s with ctrl := c }
def State.setLive (s : State) (b : Bool) : State := { s with live := b }
def State.setBuffer (s : State) (m : Memory) : State := { s with buffer := m }
def State.setInstruments (s : State) (is : List Instrument) : State := { s with instruments := is }
def State.setSources (s : State) (ss : List Source) : State := { s with sources := ss }
def State.setLut (s : State) (es : List LutEntry) : State := { s with lut := es }
def State.setOpenPacket (s : State) (ws : List Word) : State := { s with openPacket := ws }
def State.setInputs (s : State) (is : List Input) : State := { s with inputs := is }

/-- `emit Present(h, bl, br)` of R12. -/
def State.emit (s : State) (p : Present) : State := { s with presented := s.presented ++ [p] }

/-- `voice[v]` becomes `f voice[v]`; nothing when there is no slot `v`. -/
def State.modifyVoice (s : State) (v : Nat) (f : Voice → Voice) : State := s.setVoices (s.voices.modify v f)

/-- `inst[i]` becomes `f inst[i]`. -/
def State.modifyInstrument (s : State) (i : Nat) (f : Instrument → Instrument) : State :=
  s.setInstruments (s.instruments.modify i f)

/-- `src[k]` becomes `f src[k]`. -/
def State.modifySource (s : State) (k : Nat) (f : Source → Source) : State :=
  s.setSources (s.sources.modify k f)

/-- `lut[e]` becomes `f lut[e]`. -/
def State.modifyLut (s : State) (e : Nat) (f : LutEntry → LutEntry) : State := s.setLut (s.lut.modify e f)

/-! ### The output buffer memory (R64 to R67) -/

/-- What an unlisted address of the output buffer memory reads as: its reset value (R39, R321). -/
def unlistedByte : Byte := 0x00

/-- The byte of a canonical memory at an address. -/
def Memory.read : Memory → Nat → Byte
  | [], _ => unlistedByte
  | (a', b) :: m, a => if a = a' then b else Memory.read m a

/-- A canonical memory with one byte stored. -/
def Memory.write : Memory → Nat → Byte → Memory
  | [], a, b => if b = unlistedByte then [] else [(a, b)]
  | (a', b') :: m, a, b =>
    if a < a' then (if b = unlistedByte then (a', b') :: m else (a, b) :: (a', b') :: m)
    else if a = a' then (if b = unlistedByte then m else (a, b) :: m)
    else (a', b') :: Memory.write m a b

/-- Stores bytes at consecutive addresses from `a` on. -/
def Memory.writeList : Memory → Nat → List Byte → Memory
  | m, _, [] => m
  | m, a, b :: bs => Memory.writeList (Memory.write m a b) (a + 1) bs

/-- The canonical form: addresses strictly rising, and no entry equal to what an unlisted address reads as. -/
abbrev Memory.wf (m : Memory) : Prop :=
  m.Pairwise (fun c d => c.1 < d.1) ∧ ∀ c ∈ m, c.2 ≠ unlistedByte

/-- The size of the output buffer memory, `4 x SPF` bytes (R39). -/
def bufferSize (spf : Nat) : Nat := 4 * spf

/-- `OutAddr(c, h, i)` of R65; `right` is channel 1, `h` the half. -/
def outAddr (spf : Nat) (right h : Bool) (i : Nat) : Nat := right.toNat * 2 * spf + h.toNat * spf + i

/-- The sink's read port (R67): any address below `4 x SPF`, without a side effect. Beyond it, refused by name
(93 U4). -/
def sinkRead (s : State) (a : Nat) : Except Refusal Byte :=
  if a < bufferSize s.consts.spf then .ok (Memory.read s.buffer a) else .error (.sinkReadOutside a)

/-! ### The sample memory (R60 to R62) -/

/-- The byte the sample memory holds at an address: the platform's, or the free value where the platform has
populated nothing (R61, 93 U3). -/
def sampleByte : List Host.Cell → Word → Byte
  | [], a => Config.unpopulatedSample a
  | (a', b) :: m, a => if a.toNat = a' then b else sampleByte m a

/-- `SampleRead(addr)` of R62: one signed byte; the address is a 32-bit word, so it wraps. -/
def sampleRead (m : List Host.Cell) (a : Word) : Int := (sampleByte m a).toInt

/-- The populated bytes as a list by rising address, each address one of the 2^32 (R60). The machine never
writes the list (R60), and what an unlisted address reads as is free, so nothing more is asked of its form. -/
abbrev samplesWf (m : List Host.Cell) : Prop :=
  m.Pairwise (fun c d => c.1 < d.1) ∧ ∀ c ∈ m, c.1 < 2 ^ 32

/-! ### The micro-operations of R120 -/

/-- `startPos` as `Trigger` stores it: the nearest legal cursor (R120). -/
def clampStart (startPos length : Word) : Word := if length ≤ startPos then length - 1 else startPos

/-- `loopLength` as `Trigger` stores it: `min(loopLength, length)` (R120). -/
def clampLoop (loopLength length : Word) : Word := if loopLength ≤ length then loopLength else length

/-- The record `Trigger` leaves (R120): every field is written. -/
def triggered (base startPos length loopLength incr : Word) (vol pl pr : Gain) : Voice where
  active := true
  base := base
  position := clampStart startPos length
  increment := incrementOf incr
  length := length
  loopLength := clampLoop loopLength length
  volume := vol
  panLeft := pl
  panRight := pr
  envEn := false
  sounding := false
  phase := .attack
  level := 0
  attack := 0
  decay := 0
  sustainLevel := 0
  release := 0

/-- `Trigger(v, base, startPos, length, loopLength, incr, vol, pl, pr)` of R120. -/
def trigger (v : Nat) (base startPos length loopLength incr : Word) (vol pl pr : Gain) (s : State) : State :=
  if s.nv ≤ v then s
  else if length = 0 then s
  else s.modifyVoice v fun _ => triggered base startPos length loopLength incr vol pl pr

/-- `SetGains(v, vol, pl, pr)` of R120. -/
def setGains (v : Nat) (vol pl pr : Gain) (s : State) : State :=
  if s.nv ≤ v then s
  else s.modifyVoice v fun V => { V with volume := vol, panLeft := pl, panRight := pr }

/-- `SetRate(v, incr)` of R120. -/
def setRate (v : Nat) (incr : Word) (s : State) : State :=
  if s.nv ≤ v then s
  else s.modifyVoice v fun V => { V with increment := incrementOf incr }

/-- A release as `NOTEOFF` and `STOP` on an envelope voice force it (R203, R124). -/
def released (V : Voice) : Voice := { V with sounding := false, phase := .release }

/-! ### The reset input (R320, R321) -/

/-- The block after its reset input: every piece of state at its value of R321. The parameters and the sample
memory are not state of the block, what will still arrive and what was emitted are the environment's: they
stay (log entry 8). -/
def resetInput (s : State) : State :=
  { State.resetOf ⟨s.nv, s.ni, s.ns, s.nl, s.consts⟩ with
    samples := s.samples, inputs := s.inputs, presented := s.presented }

end Sys2Proof.Machine
end

