-- ==== Sys2Proof/Machine/Envelope.lean ====
section
/-! DEFINITION. The envelope (spec/43_envelope.md): the envelope tick, `NOTEON`, `NOTEOFF`. -/

namespace Sys2Proof.Machine

open Sys2Proof

/-- The Attack arm of `EnvTick` (R191, R192). -/
def attackTick (V : Voice) : Voice :=
  if V.attack = 0 then { V with level := 255, phase := .decay }
  else
    let t := V.level.toNat + 256 / V.attack.toNat
    if 255 ≤ t then { V with level := 255, phase := .decay }
    else { V with level := BitVec.ofNat 8 t }

/-- The Decay arm of `EnvTick` (R191, R193). -/
def decayTick (V : Voice) : Voice :=
  if V.decay = 0 then { V with level := V.sustainLevel, phase := .sustain }
  else if V.level ≤ V.sustainLevel then { V with phase := .sustain }
  else
    let d := max 1 ((V.level.toNat - V.sustainLevel.toNat) / V.decay.toNat)
    if V.level.toNat ≤ V.sustainLevel.toNat + d then { V with level := V.sustainLevel, phase := .sustain }
    else { V with level := BitVec.ofNat 8 (V.level.toNat - d) }

/-- The level after one Release tick (R191, R195). -/
def releaseLevel (V : Voice) : Byte :=
  if V.release = 0 then 0
  else BitVec.ofNat 8 (V.level.toNat - max 1 (V.level.toNat / V.release.toNat))

/-- The Release arm of `EnvTick` (R191, R195): reaching 0 deactivates the voice. -/
def releaseTick (V : Voice) : Voice :=
  if releaseLevel V = 0 then { V with level := 0, active := false }
  else { V with level := releaseLevel V }

/-- `EnvTick(v)` of R191, on the voice's record. -/
def envTick (V : Voice) : Voice :=
  match V.phase with
  | .attack => attackTick V
  | .decay => decayTick V
  | .sustain => V
  | .release => releaseTick V

/-- `n` semitone steps: each multiplies by a Q16 ratio and drops 16 bits (R201). -/
def semitones (ratio : Nat) : Nat → Nat → Nat
  | 0, r => r
  | n + 1, r => semitones ratio n (r * ratio / 2 ^ 16)

/-- `NoteRate(native, key)` of R201. -/
def noteRate (c : Config.Consts) (native key : Nat) : Nat :=
  let k := min key 127
  if 60 < k then semitones c.semiUp (k - 60) native
  else semitones c.semiDown (60 - k) native

/-- The increment of a note before 0 becomes 1 (R202): shifted, divided, saturated at 2^32 - 1. -/
def noteIncrement (c : Config.Consts) (rate : Nat) : Word :=
  BitVec.ofNat 32 (min (rate * 2 ^ 12 / c.mixRate) (2 ^ 32 - 1))

/-- `x << 12` of a 20-bit sample count, a UQ20.12 word (R13, R200). -/
def samplesToFixed (n : Nat) : Word := BitVec.ofNat 32 (n * 2 ^ 12)

/-- The record `NOTEON` leaves (R200): every field is written. -/
def noteStarted (c : Config.Consts) (I : Instrument) (key vel : Byte) : Voice where
  active := true
  base := I.base
  position := 0
  increment := incrementOf (noteIncrement c (noteRate c I.nativeRate.toNat key.toNat))
  length := samplesToFixed I.nsamples.toNat
  loopLength := samplesToFixed (I.nsamples.toNat - min I.loopStart.toNat I.nsamples.toNat)
  volume := gainOf vel
  panLeft := 64
  panRight := 64
  envEn := true
  sounding := true
  phase := .attack
  level := 0
  attack := I.attack
  decay := I.decay
  sustainLevel := I.sustainLevel
  release := I.release

/-- `NOTEON` (R200): a no-op when the slot or the instrument is out of range or the sample is absent. -/
def execNoteon (slot : Byte) (instr key vel : Byte) (s : State) : Host.Outcome State Fault Refusal :=
  if s.nv ≤ slot.toNat then .next s
  else
    match s.instruments[instr.toNat]? with
    | none => .next s
    | some I =>
      if I.nsamples = 0 then .next s
      else .next (s.modifyVoice slot.toNat fun _ => noteStarted s.consts I key vel)

/-- `NOTEOFF` (R203). -/
def execNoteoff (slot : Byte) (s : State) : Host.Outcome State Fault Refusal :=
  if s.nv ≤ slot.toNat then .next s else .next (s.modifyVoice slot.toNat released)

end Sys2Proof.Machine
end

