-- ==== Sys2Proof/Machine/Resampler.lean ====
section
/-! DEFINITION. Sample fetch and cursor advance (spec/41_resampler.md), the sub-operations of `MIXFRAME`. -/

namespace Sys2Proof.Machine

open Sys2Proof

/-- `position >> 12`: the index of the sample the next fetch reads (R24). -/
def sampleIndex (V : Voice) : Nat := V.position.toNat / 2 ^ 12

/-- `nsamp = (length + 4095) >> 12`: the number of sample indices the voice plays (R26). -/
def sampleCount (V : Voice) : Nat := (V.length.toNat + 4095) / 2 ^ 12

/-- The next sample index, or 0 after the final one (R142). -/
def nextIndex (V : Voice) : Nat := if sampleCount V ≤ sampleIndex V + 1 then 0 else sampleIndex V + 1

/-- The sample at an index of the voice: `SampleRead(base + i)` (R62, R63). -/
def sampleAt (m : List Host.Cell) (V : Voice) (i : Nat) : Int := sampleRead m (V.base + BitVec.ofNat 32 i)

/-- `s0 + (((s1 - s0) * f) >>a 12)` of R142. -/
def blend (s0 s1 : Int) (f : Nat) : Int := s0 + asr ((s1 - s0) * f) 12

/-- `Fetch(v)` with `CTRL.INTERP = 0` (R141). -/
def fetchNearest (m : List Host.Cell) (V : Voice) : Int := sampleAt m V (sampleIndex V)

/-- `Fetch(v)` with `CTRL.INTERP = 1` (R142). -/
def fetchInterpolated (m : List Host.Cell) (V : Voice) : Int :=
  blend (sampleAt m V (sampleIndex V)) (sampleAt m V (nextIndex V)) (V.position.toNat % 2 ^ 12)

/-- `Fetch(v)` (R141, R142), in the mode of `CTRL.INTERP` (R144). -/
def fetchSample (m : List Host.Cell) (interp : Bool) (V : Voice) : Int :=
  if interp then fetchInterpolated m V else fetchNearest m V

/-- The cursor `p ≥ length` brought back by `loopLength > 0`: the closed form of R147. -/
def wrapCursor (p length loopLength : Nat) : Nat := p - ((p - length) / loopLength + 1) * loopLength

/-- `while p >= length: p <- p - loopLength` of R145, at most `fuel` times round. -/
def wrapLoop (length loopLength : Nat) : Nat → Nat → Nat
  | 0, p => p
  | fuel + 1, p => if length ≤ p then wrapLoop length loopLength fuel (p - loopLength) else p

/-- `Advance(v)` of R145, on the voice's record. -/
def advance (V : Voice) : Voice :=
  let p := V.position.toNat + V.increment.toNat
  if p < V.length.toNat then { V with position := BitVec.ofNat 32 p }
  else if V.loopLength = 0 then { V with active := false, position := BitVec.ofNat 32 p }
  else { V with position := BitVec.ofNat 32 (wrapCursor p V.length.toNat V.loopLength.toNat) }

end Sys2Proof.Machine
end

