-- ==== Sys2Proof/Machine/Mixer.lean ====
section
/-! DEFINITION. The mixing engine (spec/42_mixer.md): `MIXFRAME`. -/

namespace Sys2Proof.Machine

open Sys2Proof

/-- `g` of R164: the voice's volume for the whole frame. -/
def effectiveVolume (V : Voice) : Nat :=
  if V.envEn then V.volume.toNat * V.level.toNat / 2 ^ 8 else V.volume.toNat

/-- The contributions of one fetched value to the left and the right accumulator: R166 in stereo, R167 in mono. -/
def contribution (stereo : Bool) (g : Nat) (V : Voice) (val : Int) : Int × Int :=
  if stereo then (tdiv (val * g * V.panLeft.toNat) 64, tdiv (val * g * V.panRight.toNat) 64)
  else (val * g, 0)

/-- The sample loop of one voice's turn (R161, step 2) over `k` output indices: the voice afterwards and its
contribution at each index; nothing after the voice has ended (R165). -/
def playSamples (m : List Host.Cell) (c : Ctrl) (g : Nat) : Nat → Voice → Voice × List (Int × Int)
  | 0, V => (V, [])
  | k + 1, V =>
    if V.active then
      let r := playSamples m c g k (advance V)
      (r.1, contribution c.stereo g V (fetchSample m c.interp V) :: r.2)
    else (V, List.replicate (k + 1) (0, 0))

/-- The voice after the envelope tick at the start of its turn, if it has one (R161, R164). -/
def turnStart (V : Voice) : Voice := if V.active && V.envEn then envTick V else V

/-- One voice's turn in the frame (R161): the voice afterwards, whether it contributes (R163), and its
contribution at each output index. -/
def voiceTurn (m : List Host.Cell) (c : Ctrl) (spf : Nat) (V : Voice) : Voice × Bool × List (Int × Int) :=
  let W := turnStart V
  let r := playSamples m c (effectiveVolume W) spf W
  (r.1, W.active, r.2)

/-- The turns of all voices, in ascending slot order (R161). -/
def frameTurns (s : State) : List (Voice × Bool × List (Int × Int)) :=
  s.voices.map (voiceTurn s.samples s.ctrl s.consts.spf)

/-- Adds one voice's contributions into the accumulators. -/
def addContributions (acc cs : List (Int × Int)) : List (Int × Int) :=
  List.zipWith (fun a c => (a.1 + c.1, a.2 + c.2)) acc cs

/-- The accumulators after all turns: zeroed (R162), then each voice's contributions added in slot order. -/
def accumulate (spf : Nat) (turns : List (Voice × Bool × List (Int × Int))) : List (Int × Int) :=
  turns.foldl (fun acc t => addContributions acc t.2.2) (List.replicate spf (0, 0))

/-- `n` of R163: the number of contributing voices. -/
def contributing (turns : List (Voice × Bool × List (Int × Int))) : Nat := turns.countP (·.2.1)

/-- `s = 6 + ceil_log2(max(n, 1))` of R170. -/
def downscaleShift (n : Nat) : Nat := 6 + ceilLog2 (max n 1)

/-- `(acc + (1 << (s-1))) >>a s` of R170: the shifted value, before the clamp. -/
def downscale (sh : Nat) (acc : Int) : Int := asr (acc + 2 ^ (sh - 1)) sh

/-- The output byte of an accumulator (R170, R171). -/
def outByte (sh : Nat) (acc : Int) : Byte := BitVec.ofInt 8 (clamp8 (downscale sh acc))

/-- Step 4 of R161: the fill half of the left channel, and in stereo of the right channel. -/
def storeFrame (spf : Nat) (stereo fill : Bool) (sh : Nat) (acc : List (Int × Int)) (m : Memory) : Memory :=
  let m1 := Memory.writeList m (outAddr spf false fill 0) (acc.map fun a => outByte sh a.1)
  if stereo then Memory.writeList m1 (outAddr spf true fill 0) (acc.map fun a => outByte sh a.2) else m1

/-- `MIXFRAME` (R160, R161). -/
def execMixframe (s : State) : Host.Outcome State Fault Refusal :=
  let turns := frameTurns s
  .next ((s.setVoices (turns.map (·.1))).setBuffer
    (storeFrame s.consts.spf s.ctrl.stereo (!s.live) (downscaleShift (contributing turns))
      (accumulate s.consts.spf turns) s.buffer))

end Sys2Proof.Machine
end

