-- ==== Sys2Proof/Machine/Position.lean ====
section
/-! DEFINITION. The positional mapper (spec/45_positional.md): `UPDPOS`. -/

namespace Sys2Proof.Machine

open Sys2Proof

/-- `panR` of `Pan(dx, hx)` (R241). -/
def panRightOf (dx : Int) (hx : Nat) : Nat := ((clamp dx (-hx) hx + hx) * 64 / (2 * hx)).toNat

/-- `panL` of `Pan(dx, hx)` (R241). -/
def panLeftOf (dx : Int) (hx : Nat) : Nat := 64 - panRightOf dx hx

/-- One axis of the distance law: `(maxVol * (h - min(|d|, h))) / h` (R242). -/
def axisVolume (d : Int) (h maxVol : Nat) : Nat := maxVol * (h - min d.natAbs h) / h

/-- `Distance(dx, dy, hx, hy, maxVol)` of R242. -/
def distanceVolume (dx dy : Int) (hx hy maxVol : Nat) : Nat := min (axisVolume dx hx maxVol) (axisVolume dy hy maxVol)

/-- Whether `Facing(s, y)` flips the facing (R243). -/
def flips (S : Source) (y : Half16) : Bool :=
  match S.facing with
  | .front => decide (S.swBack.toInt < y.toInt)
  | .back => decide (y.toInt < S.swFront.toInt)

/-- The other facing. -/
def Facing.other : Facing → Facing
  | .front => .back
  | .back => .front

/-- The facing after `Facing(s, y)` (R243). -/
def facingAfter (S : Source) (y : Half16) : Facing := if flips S y then S.facing.other else S.facing

/-- `dx <- x - S.cx` of R240. -/
def offsetX (S : Source) (x : Half16) : Int := x.toInt - S.cx.toInt

/-- `dy <- y - S.cy` of R240. -/
def offsetY (S : Source) (y : Half16) : Int := y.toInt - S.cy.toInt

/-- `vol` of R240, as it is stored. -/
def positionVolume (S : Source) (x y : Half16) : Gain :=
  BitVec.ofNat 7 (distanceVolume (offsetX S x) (offsetY S y) S.hx.toNat S.hy.toNat S.maxVol.toNat)

/-- The source's own state after an `UPDPOS` that acts on it, the bucket apart (R240, R243). -/
def moved (S : Source) (x y : Half16) : Source := { S with x := x, y := y, facing := facingAfter S y }

/-- The sample set of a facing, `(base, length, loopLength, increment)` (R247). -/
def sampleSet (S : Source) : Facing → Word × Word × Word × Word
  | .front => (S.fBase, S.fLen, S.fLoop, S.fInc)
  | .back => (S.bBase, S.bLen, S.bLoop, S.bInc)

/-- `Synthetic(s, vol, panL, panR, flip)` of R247; `S` is the source after `Facing`. -/
def synthetic (S : Source) (vol panL panR : Gain) (flip : Bool) (s : State) : State :=
  let set := sampleSet S S.facing
  if flip then trigger S.vA.toNat set.1 0 set.2.1 set.2.2.1 set.2.2.2 vol panL panR s
  else setRate S.vA.toNat set.2.2.2 (setGains S.vA.toNat vol panL panR s)

/-- `bk` of R250 and R251: the azimuth bucket. -/
def azimuthBucket (dx : Int) (hx nb : Nat) : Nat := min ((clamp dx (-hx) hx + hx) * nb / (2 * hx)).toNat (nb - 1)

/-- `e` of R250: the table entry; `S` is the source after `Facing`. -/
def tableIndex (S : Source) (bk : Nat) : Nat :=
  S.lutBase.toNat + (if S.fbSel && S.facing == .back then S.nb.toNat else 0) + bk

/-- `changed` of R250. -/
def bucketChanged (S : Source) (bk : Nat) (flip : Bool) : Bool :=
  decide (bk ≠ S.bucket.toNat) || (S.fbSel && flip)

/-- `Lookup(s, dx, vol, flip)` of R250; `k` is the source's index and `S` the source after `Facing`. -/
def lookup (k : Nat) (S : Source) (dx : Int) (vol : Gain) (flip : Bool) (s : State) : State :=
  let bk := azimuthBucket dx S.hx.toNat S.nb.toNat
  if bucketChanged S bk flip then
    let s1 := s.modifySource k fun T => { T with bucket := BitVec.ofNat 8 bk }
    match s.lut[tableIndex S bk]? with
    | none => s1
    | some e =>
      trigger S.vB.toNat e.baseR 0 S.fLen S.fLoop S.fInc vol 0 64
        (trigger S.vA.toNat e.baseL 0 S.fLen S.fLoop S.fInc vol 64 0 s1)
  else setGains S.vB.toNat vol 0 64 (setGains S.vA.toNat vol 64 0 s)

/-- `UPDPOS` (R240): a no-op when the source is out of range or disabled. -/
def execUpdpos (slot : Byte) (x y : Half16) (s : State) : Host.Outcome State Fault Refusal :=
  match s.sources[slot.toNat]? with
  | none => .next s
  | some S =>
    if S.en then
      let T := moved S x y
      let s1 := s.modifySource slot.toNat fun _ => T
      let dx := offsetX S x
      let vol := positionVolume S x y
      if S.lutMode then .next (lookup slot.toNat T dx vol (flips S y) s1)
      else
        .next (synthetic T vol (BitVec.ofNat 7 (panLeftOf dx S.hx.toNat)) (BitVec.ofNat 7 (panRightOf dx S.hx.toNat))
          (flips S y) s1)
    else .next s

end Sys2Proof.Machine
end

