-- ==== Sys2Proof/Machine/Registers.lean ====
section
/-! DEFINITION. Configuration (spec/46_config.md): the register map and `WRREG`. -/

namespace Sys2Proof.Machine

open Sys2Proof

/-- `CTRL` written (R37, R270): bits 0 and 1; bit 2 is hardwired and bits 31:3 are reserved. -/
def ctrlOf (value : Word) : Ctrl where
  interp := value.getLsbD 0
  stereo := value.getLsbD 1

/-- Word `k` of an instrument record written (R272). -/
def writeInstrument (k : Nat) (value : Word) (I : Instrument) : Instrument :=
  match k with
  | 0 => { I with base := value }
  | 1 => { I with nsamples := low20 value }
  | 2 => { I with loopStart := low20 value }
  | 3 => { I with nativeRate := low24 value }
  | 4 => { I with attack := lowHalf value, decay := highHalf value }
  | 5 => { I with sustainLevel := lowByte value, release := highHalf value }
  | _ => I

/-- Word `k` of a source record written (R273). -/
def writeSource (k : Nat) (value : Word) (S : Source) : Source :=
  match k with
  | 0 => { S with en := value.getLsbD 0, lutMode := value.getLsbD 1, fbSel := value.getLsbD 2 }
  | 1 => { S with vA := lowByte value, vB := secondByte value }
  | 2 => { S with cx := lowHalf value, cy := highHalf value }
  | 3 => { S with hx := extentOf (lowHalf value), hy := extentOf (highHalf value) }
  | 4 => { S with swFront := lowHalf value, swBack := highHalf value }
  | 5 => { S with maxVol := gainOf (lowByte value) }
  | 6 => { S with fBase := value }
  | 7 => { S with fLen := value }
  | 8 => { S with fLoop := value }
  | 9 => { S with fInc := value }
  | 10 => { S with bBase := value }
  | 11 => { S with bLen := value }
  | 12 => { S with bLoop := value }
  | 13 => { S with bInc := value }
  | 14 => { S with nb := bucketCountOf (lowByte value), lutBase := middleHalf value }
  | _ => S

/-- Word `k` of a table entry written (R274). -/
def writeLut (k : Nat) (value : Word) (e : LutEntry) : LutEntry :=
  match k with
  | 0 => { e with baseL := value }
  | _ => { e with baseR := value }

/-- Writes the register at address `a`; an address that holds none is a no-op (R270, R271, R275). -/
def writeRegister (a : Nat) (value : Word) (s : State) : State :=
  if a = 0 then s.setCtrl (ctrlOf value)
  else if 0x1000 ≤ a ∧ a < 0x1000 + 8 * s.ni then
    s.modifyInstrument ((a - 0x1000) / 8) (writeInstrument ((a - 0x1000) % 8) value)
  else if 0x2000 ≤ a ∧ a < 0x2000 + 16 * s.ns then
    s.modifySource ((a - 0x2000) / 16) (writeSource ((a - 0x2000) % 16) value)
  else if 0x4000 ≤ a ∧ a < 0x4000 + 2 * s.nl then
    s.modifyLut ((a - 0x4000) / 2) (writeLut ((a - 0x4000) % 2) value)
  else s

/-- `WRREG` (R270). -/
def execWrreg (addr : Half16) (value : Word) (s : State) : Host.Outcome State Fault Refusal :=
  .next (writeRegister addr.toNat value s)

end Sys2Proof.Machine
end

