-- ==== Sys2Proof/Machine/Voice.lean ====
section
/-! DEFINITION. The voice commands (spec/40_voice.md): `TRIG`, `SETGAIN`, `SETRATE`, `STOP`. -/

namespace Sys2Proof.Machine

open Sys2Proof

/-- `TRIG` (R121): a no-op when the sample is absent (`P = 0`), else `Trigger`. -/
def execTrig (slot : Byte) (present : Bool) (base startPos length loopLength inc : Word) (vol panL panR : Byte)
    (s : State) : Host.Outcome State Fault Refusal :=
  if present then
    .next (trigger slot.toNat base startPos length loopLength inc (gainOf vol) (gainOf panL) (gainOf panR) s)
  else .next s

/-- `SETGAIN` (R122). -/
def execSetgain (slot : Byte) (vol panL panR : Byte) (s : State) : Host.Outcome State Fault Refusal :=
  .next (setGains slot.toNat (gainOf vol) (gainOf panL) (gainOf panR) s)

/-- `SETRATE` (R123). -/
def execSetrate (slot : Byte) (inc : Word) (s : State) : Host.Outcome State Fault Refusal :=
  .next (setRate slot.toNat inc s)

/-- What `STOP` does to a voice (R124): Release when an envelope is attached, else inactive at once. -/
def stopped (V : Voice) : Voice := if V.envEn then released V else { V with active := false }

/-- `STOP` (R124). -/
def execStop (slot : Byte) (s : State) : Host.Outcome State Fault Refusal :=
  if s.nv ≤ slot.toNat then .next s else .next (s.modifyVoice slot.toNat stopped)

end Sys2Proof.Machine
end

