-- ==== Sys2Proof/Syntax.lean ====
section
/-! DEFINITION. The nine commands, one constructor for each row of spec/opcode_table.json
(spec/30_encoding.md rules R91 to R93). Operands are the fields of R92 as they stand in the packet: the
decoder neither scales nor clamps them (R96); the meanings clamp (R97). -/

namespace Sys2Proof

/-- A command of the block, its operands as the packet carries them. -/
inductive Instr where
  /-- `TRIG` (R121). `present` is the flag `P` of R101. -/
  | trig (slot : Byte) (present : Bool) (base startPos length loopLength inc : Word) (vol panL panR : Byte)
  /-- `STOP` (R124). -/
  | stop (slot : Byte)
  /-- `SETGAIN` (R122). -/
  | setgain (slot : Byte) (vol panL panR : Byte)
  /-- `SETRATE` (R123). -/
  | setrate (slot : Byte) (inc : Word)
  /-- `NOTEON` (R200). -/
  | noteon (slot : Byte) (instr key vel : Byte)
  /-- `NOTEOFF` (R203). -/
  | noteoff (slot : Byte)
  /-- `UPDPOS` (R240). `x` and `y` are read as signed 16-bit numbers. -/
  | updpos (slot : Byte) (x y : Half16)
  /-- `MIXFRAME` (R160). -/
  | mixframe
  /-- `WRREG` (R270). -/
  | wrreg (addr : Half16) (value : Word)
deriving DecidableEq, Repr

/-- The opcode byte of a command (R93). -/
def Instr.opcode : Instr → Byte
  | .trig .. => 0x01
  | .stop .. => 0x02
  | .setgain .. => 0x03
  | .setrate .. => 0x04
  | .noteon .. => 0x05
  | .noteoff .. => 0x06
  | .updpos .. => 0x07
  | .mixframe => 0x08
  | .wrreg .. => 0x09

/-- The number of operand words of a command (R93, column "operand words"). -/
def Instr.operandWords : Instr → Nat
  | .trig .. => 6
  | .stop .. => 0
  | .setgain .. => 1
  | .setrate .. => 1
  | .noteon .. => 1
  | .noteoff .. => 0
  | .updpos .. => 1
  | .mixframe => 0
  | .wrreg .. => 1

/-- The number of words of a command's packet (R90: 1, 2 or 7). -/
def Instr.packetLength (i : Instr) : Nat := 1 + i.operandWords

end Sys2Proof
end

