-- ==== Sys2Proof/Machine/Dispatch.lean ====
section
/-! DEFINITION. The dispatch: one arm for each command of spec/opcode_table.json. -/

namespace Sys2Proof.Machine

open Sys2Proof

def exec (i : Instr) (s : State) : Host.Outcome State Fault Refusal :=
  match i with
  | .trig slot present base startPos length loopLength inc vol panL panR => Sys2Proof.Machine.execTrig slot present base startPos length loopLength inc vol panL panR s
  | .stop slot => Sys2Proof.Machine.execStop slot s
  | .setgain slot vol panL panR => Sys2Proof.Machine.execSetgain slot vol panL panR s
  | .setrate slot inc => Sys2Proof.Machine.execSetrate slot inc s
  | .noteon slot instr key vel => Sys2Proof.Machine.execNoteon slot instr key vel s
  | .noteoff slot => Sys2Proof.Machine.execNoteoff slot s
  | .updpos slot x y => Sys2Proof.Machine.execUpdpos slot x y s
  | .mixframe => Sys2Proof.Machine.execMixframe s
  | .wrreg addr value => Sys2Proof.Machine.execWrreg addr value s

end Sys2Proof.Machine
end

