-- ==== Sys2Proof/WellFormed.lean ====
section
/-! DEFINITION. What makes a list of words one well-formed packet (spec/30_encoding.md rules R90, R93, R98).
Every field of `Instr` is exactly as wide as its field of the packet, so an `Instr` that does not fit its
encoding cannot be written down; an operand out of a table's range (R99), an ignored bit (R100) and an
unmapped address (R275) are legal operands with a stated effect. What can be ill-formed is a packet. -/

namespace Sys2Proof

/-- The number of operand words an opcode byte calls for (R93); none for a reserved opcode (R98). -/
def operandCount (opc : Byte) : Option Nat :=
  match opc.toNat with
  | 1 => some 6
  | 2 => some 0
  | 3 => some 1
  | 4 => some 1
  | 5 => some 1
  | 6 => some 0
  | 7 => some 1
  | 8 => some 0
  | 9 => some 1
  | _ => none

/-- Why a list of words is not one packet. -/
inductive PacketFlaw where
  /-- There is no header word (R90). -/
  | noHeader
  /-- The header's opcode is 0x00 or 0x0A..0xFF (R98). -/
  | reservedOpcode (opc : Byte)
  /-- The header's opcode calls for another number of operand words (R90, R93). -/
  | wrongLength (want have_ : Nat)
deriving DecidableEq, Repr

/-- The flaw of a list of words as one packet, if it has one. -/
def packetFlaw : List Word → Option PacketFlaw
  | [] => some .noHeader
  | h :: ws =>
    match operandCount (h.extractLsb' 24 8) with
    | none => some (.reservedOpcode (h.extractLsb' 24 8))
    | some k => if ws.length = k then none else some (.wrongLength k ws.length)

/-- The list of words is exactly one packet of one of the nine commands. -/
def PacketWf (ws : List Word) : Bool := packetFlaw ws == none

/-- A command is well-formed when its opcode calls for the operand words it has. True of every `Instr`: the
check stands for the table's consistency, since the fields' widths leave nothing else to check. -/
def Instr.WellFormed (i : Instr) : Bool := operandCount i.opcode == some i.operandWords

end Sys2Proof
end

