-- ==== Sys2Proof/Decode.lean ====
section
/-! DEFINITION. The decoder and the encoder of packets (spec/30_encoding.md rules R90 to R101), the
little-endian byte transport of words (spec/20_memory.md rule R69), and the words of an opcode-table row. -/

namespace Sys2Proof

/-- What the decoder reads at the front of a list of words. -/
inductive Decoded where
  /-- One whole packet, and the words after it. -/
  | instr (i : Instr) (rest : List Word)
  /-- A header with a reserved opcode: one word, and the words after it (R98). -/
  | reserved (opc : Byte) (rest : List Word)
  /-- No header, or a header whose operand words have not all arrived (R95). -/
  | incomplete
deriving DecidableEq, Repr

/-! ### Fields of the words (R91, R92) -/

/-- `OPC`, bits 31:24 of the header (R91). -/
def opcOf (h : Word) : Byte := h.extractLsb' 24 8

/-- `SLOT`, bits 23:16 of the header (R91). -/
def slotOf (h : Word) : Byte := h.extractLsb' 16 8

/-- `IMM`, bits 15:0 of the header (R91). -/
def immOf (h : Word) : Half16 := h.extractLsb' 0 16

/-- Bits 7:0 of an operand word: `VOL` of GAINS, `INSTR` of NOTE (R92). -/
def byte0 (w : Word) : Byte := w.extractLsb' 0 8

/-- Bits 15:8 of an operand word: `PANL` of GAINS, `KEY` of NOTE (R92). -/
def byte1 (w : Word) : Byte := w.extractLsb' 8 8

/-- Bits 23:16 of an operand word: `PANR` of GAINS, `VEL` of NOTE (R92). -/
def byte2 (w : Word) : Byte := w.extractLsb' 16 8

/-- Bits 15:0 of an operand word: `X` of POS (R92). -/
def half0 (w : Word) : Half16 := w.extractLsb' 0 16

/-- Bits 31:16 of an operand word: `Y` of POS (R92). -/
def half1 (w : Word) : Half16 := w.extractLsb' 16 16

/-- The flag `P`, bit 0 of the header (R91, R101). -/
def presentOf (h : Word) : Bool := h.getLsbD 0

/-! ### The decoder -/

/-- Reads one packet at the front of a list of words (R93, R95, R98). -/
def decode : List Word → Decoded
  | [] => .incomplete
  | h :: ws =>
    match (opcOf h).toNat with
    | 1 =>
      match ws with
      | w1 :: w2 :: w3 :: w4 :: w5 :: w6 :: rest =>
        .instr (.trig (slotOf h) (presentOf h) w1 w2 w3 w4 w5 (byte0 w6) (byte1 w6) (byte2 w6)) rest
      | _ => .incomplete
    | 2 => .instr (.stop (slotOf h)) ws
    | 3 =>
      match ws with
      | w1 :: rest => .instr (.setgain (slotOf h) (byte0 w1) (byte1 w1) (byte2 w1)) rest
      | _ => .incomplete
    | 4 =>
      match ws with
      | w1 :: rest => .instr (.setrate (slotOf h) w1) rest
      | _ => .incomplete
    | 5 =>
      match ws with
      | w1 :: rest => .instr (.noteon (slotOf h) (byte0 w1) (byte1 w1) (byte2 w1)) rest
      | _ => .incomplete
    | 6 => .instr (.noteoff (slotOf h)) ws
    | 7 =>
      match ws with
      | w1 :: rest => .instr (.updpos (slotOf h) (half0 w1) (half1 w1)) rest
      | _ => .incomplete
    | 8 => .instr .mixframe ws
    | 9 =>
      match ws with
      | w1 :: rest => .instr (.wrreg (immOf h) w1) rest
      | _ => .incomplete
    | _ => .reserved (opcOf h) ws

/-! ### The encoder: ignored fields are 0, as an assembler writes them (R91) -/

/-- A header word (R91). -/
def header (opc slot : Byte) (imm : Half16) : Word := opc ++ slot ++ imm

/-- Three bytes in bits 23:0 of an operand word, bits 31:24 zero: GAINS and NOTE (R92). -/
def packBytes (b0 b1 b2 : Byte) : Word := 0#8 ++ b2 ++ b1 ++ b0

/-- Two halves of an operand word: POS (R92). -/
def packHalves (h0 h1 : Half16) : Word := h1 ++ h0

/-- The words of a command's packet (R91 to R93). -/
def encode : Instr → List Word
  | .trig v p base startPos length loopLength inc vol panL panR =>
    [header 0x01 v (if p then 1 else 0), base, startPos, length, loopLength, inc, packBytes vol panL panR]
  | .stop v => [header 0x02 v 0]
  | .setgain v vol panL panR => [header 0x03 v 0, packBytes vol panL panR]
  | .setrate v inc => [header 0x04 v 0, inc]
  | .noteon v instr key vel => [header 0x05 v 0, packBytes instr key vel]
  | .noteoff v => [header 0x06 v 0]
  | .updpos v x y => [header 0x07 v 0, packHalves x y]
  | .mixframe => [header 0x08 0 0]
  | .wrreg addr value => [header 0x09 0 addr, value]

/-! ### The byte transport (R69: little-endian) -/

/-- The word that four bytes carry, bits 7:0 first (R69). -/
def wordOfBytes (b0 b1 b2 b3 : Byte) : Word := b3 ++ b2 ++ b1 ++ b0

/-- The four bytes that carry a word, bits 7:0 first (R69). -/
def bytesOfWord (w : Word) : List Byte :=
  [w.extractLsb' 0 8, w.extractLsb' 8 8, w.extractLsb' 16 8, w.extractLsb' 24 8]

/-- The words that a list of bytes carries; up to three bytes at the end are a word that has not arrived. -/
def wordsOfBytes : List Byte → List Word
  | b0 :: b1 :: b2 :: b3 :: rest => wordOfBytes b0 b1 b2 b3 :: wordsOfBytes rest
  | _ => []

/-- The decoder on a byte transport. -/
def decodeBytes (bs : List Byte) : Decoded := decode (wordsOfBytes bs)

/-- The bytes of a command's packet on a byte transport. -/
def encodeBytes (i : Instr) : List Byte := (encode i).flatMap bytesOfWord

/-! ### The words of an opcode-table row -/

/-- The words of an instruction whose bits are `w`, bit 0 the least significant bit of the first word, every
bit from `nbits` on zero, laid out to the length of the longest packet (7 words). -/
def tableWords (nbits w : Nat) : List Word :=
  (List.range 7).map fun j => BitVec.ofNat 32 ((w % 2 ^ nbits) / 2 ^ (32 * j))

/-- The words of one packet only, cut by its header's opcode (R90, R95; a reserved opcode is one word, R98). -/
def tablePacket (nbits w : Nat) : List Word :=
  match tableWords nbits w with
  | [] => []
  | h :: ws => h :: ws.take ((operandCount (opcOf h)).getD 0)

/-- The instruction the decoder reads from an instruction whose bits are `w`. -/
def decodeTableWord (nbits w : Nat) : Option Instr :=
  match decode (tableWords nbits w) with
  | .instr i _ => some i
  | _ => none

end Sys2Proof
end

