-- ==== Sys2Proof/Machine/Swap.lean ====
section
/-! DEFINITION. The double-buffer swap (spec/44_swap.md): the `TICK` event and the Present event. -/

namespace Sys2Proof.Machine

/-- The Present event for a newly live half (R221, R223, R65). -/
def presentOfHalf (spf : Nat) (h : Bool) : Present where
  half := h
  baseL := outAddr spf false h 0
  baseR := outAddr spf true h 0

/-- `TICK` (R221): the live half flips and one Present is emitted; nothing else changes. -/
def tickEvent (s : State) : State :=
  (s.setLive (!s.live)).emit (presentOfHalf s.consts.spf (!s.live))

end Sys2Proof.Machine
end

