-- ==== Sys2Proof/Machine/Port.lean ====
section
/-! DEFINITION. The command port and the event inputs (spec/30_encoding.md rule R95, spec/60_exceptions.md
rules R294 to R297): what arrives next, and the packet it completes. -/

namespace Sys2Proof.Machine

open Sys2Proof

/-- What the command assembler makes of the words that arrive before the next event. -/
inductive Fetched where
  /-- A whole packet of a command, and what arrives after it. -/
  | command (i : Instr) (rest : List Input)
  /-- A one-word packet with a reserved opcode, and what arrives after it (R98). -/
  | reserved (rest : List Input)
  /-- The words held of a packet still open, and what arrives next, which is no plain word (R95). -/
  | waiting (held : List Word) (rest : List Input)
deriving DecidableEq, Repr

/-- Packet assembly (R95): takes words into the open packet until it is complete, an event comes first, or
nothing more arrives. -/
def fetchPacket (held : List Word) : List Input → Fetched
  | .word w :: rest =>
    match decode (held ++ [w]) with
    | .instr i _ => .command i rest
    | .reserved _ _ => .reserved rest
    | .incomplete => fetchPacket (held ++ [w]) rest
  | ins => .waiting held ins

/-- What the next step has to do. -/
inductive Taken where
  /-- The step is done: an event was taken, words are held, a reserved opcode passed, or nothing arrives. -/
  | done (s : State)
  /-- A packet is complete: the command runs in the state given. -/
  | command (i : Instr) (s : State)
deriving DecidableEq, Repr

/-- The state with its assembler empty and its inputs `rest`. -/
def packetTaken (s : State) (rest : List Input) : State := (s.setOpenPacket []).setInputs rest

/-- Takes what arrives next. A `TICK` runs at once and does not disturb an open packet (R95); on a tie it goes
before the word (R297); with nothing arriving the block waits (R321). A reserved opcode is a no-op (R98; log
entry 4). -/
def takeInput (s : State) : Taken :=
  match s.inputs with
  | [] => .done s
  | .tick :: rest => .done (tickEvent (s.setInputs rest))
  | .tickAndWord w :: rest => .done (tickEvent (s.setInputs (.word w :: rest)))
  | .reset :: rest => .done (resetInput (s.setInputs rest))
  | .word w :: rest =>
    match fetchPacket s.openPacket (.word w :: rest) with
    | .command i rest' => .command i (packetTaken s rest')
    | .reserved rest' => .done (packetTaken s rest')
    | .waiting held rest' => .done ((s.setOpenPacket held).setInputs rest')

/-- The state with an instruction's packet put where the next step takes its words: the assembler empty and the
packet's words arriving first (log entry 14). -/
def placePacket (s : State) (nbits w : Nat) : State :=
  (s.setOpenPacket []).setInputs ((tablePacket nbits w).map .word ++ s.inputs)

end Sys2Proof.Machine
end

