-- ==== Sys2Proof/Machine/Step.lean ====
section
/-! DEFINITION. One step of the block (spec/00_scope.md rule R14). -/

namespace Sys2Proof.Machine

/-- One step: what arrives next is taken; a command whose packet is complete runs (R14, R95). -/
def step (s : State) : Host.Outcome State Fault Refusal :=
  match takeInput s with
  | .done t => .next t
  | .command i t => exec i t

/-- The state with an instruction stored where the next step takes it. -/
def State.withFetchWord (s : State) (nbits w : Nat) : State := placePacket s nbits w

end Sys2Proof.Machine
end

