-- ==== Sys2Proof/Machine/Asm.lean ====
section
/-! DEFINITION. The assembler's operand conventions (spec/30_encoding.md rule R102) and the pseudo-commands
(R103), as the commands they stand for. -/

namespace Sys2Proof.Machine

open Sys2Proof

/-- A signed decimal gain or velocity operand as 8-bit two's complement (R102). -/
def asmGain (n : Int) : Byte := BitVec.ofInt 8 n

/-- `n<<12`, a UQ20.12 operand (R13, R102). -/
def asmFix (n : Nat) : Word := BitVec.ofNat 32 (n * 2 ^ 12)

/-- `TRIG v, base, startPos, length, loopLength, inc, vol, panL, panR` (R102): `P = 1`. -/
def asmTrig (v : Nat) (base startPos length loopLength inc : Word) (vol panL panR : Int) : Instr :=
  .trig (BitVec.ofNat 8 v) true base startPos length loopLength inc (asmGain vol) (asmGain panL) (asmGain panR)

/-- `TRIG.NULL v` (R102): `P = 0`, words 1 to 6 are 0. -/
def asmTrigNull (v : Nat) : Instr := .trig (BitVec.ofNat 8 v) false 0 0 0 0 0 0 0 0

/-- `SETGAIN v, vol, panL, panR` (R102). -/
def asmSetgain (v : Nat) (vol panL panR : Int) : Instr :=
  .setgain (BitVec.ofNat 8 v) (asmGain vol) (asmGain panL) (asmGain panR)

/-- `NOTEON v, instr, key, vel` (R102). -/
def asmNoteon (v instr key : Nat) (vel : Int) : Instr :=
  .noteon (BitVec.ofNat 8 v) (BitVec.ofNat 8 instr) (BitVec.ofNat 8 key) (asmGain vel)

/-- `UPDPOS s, x, y` (R102). -/
def asmUpdpos (s : Nat) (x y : Int) : Instr :=
  .updpos (BitVec.ofNat 8 s) (BitVec.ofInt 16 x) (BitVec.ofInt 16 y)

/-- `WRREG addr, value` (R102). -/
def asmWrreg (addr : Nat) (value : Word) : Instr := .wrreg (BitVec.ofNat 16 addr) value

/-- `SETRATEHZ v, hz` (R103): `SETRATE v, (hz << 12) / MIX_RATE`. -/
def asmSetrateHz (mixRate v hz : Nat) : Instr :=
  .setrate (BitVec.ofNat 8 v) (BitVec.ofNat 32 (hz * 2 ^ 12 / mixRate))

/-- `WRCTRL interp, stereo` (R103): `WRREG 0x0000, interp + 2 x stereo`. -/
def asmWrctrl (interp stereo : Bool) : Instr := asmWrreg 0x0000 (BitVec.ofNat 32 (interp.toNat + 2 * stereo.toNat))

/-- `WRINST i, base, nsamples, loopStart, rate, a, d, s, r` (R103): six `WRREG`. -/
def asmWrinst (i : Nat) (base : Word) (nsamples loopStart rate a d s r : Nat) : List Instr :=
  [asmWrreg (0x1000 + 8 * i) base,
   asmWrreg (0x1001 + 8 * i) (BitVec.ofNat 32 nsamples),
   asmWrreg (0x1002 + 8 * i) (BitVec.ofNat 32 loopStart),
   asmWrreg (0x1003 + 8 * i) (BitVec.ofNat 32 rate),
   asmWrreg (0x1004 + 8 * i) (BitVec.ofNat 32 (a + d * 2 ^ 16)),
   asmWrreg (0x1005 + 8 * i) (BitVec.ofNat 32 (s + r * 2 ^ 16))]

/-- `WRLUT e, baseL, baseR` (R103): two `WRREG`. -/
def asmWrlut (e : Nat) (baseL baseR : Word) : List Instr :=
  [asmWrreg (0x4000 + 2 * e) baseL, asmWrreg (0x4001 + 2 * e) baseR]

end Sys2Proof.Machine
end

