-- ==== Sys2Proof/Machine/Flags.lean ====
section
/-! DEFINITION. The status wires (spec/10_state.md rule R45). The block has no condition code, no carry, no
overflow and no sticky error flag; the wires are a combinational view of state, and no command reads them. -/

namespace Sys2Proof.Machine

/-- The wires `active[NV]` (R45). -/
def statusActive (s : State) : List Bool := s.voices.map (·.active)

/-- The wires `sounding[NV]` (R45, R31). -/
def statusSounding (s : State) : List Bool := s.voices.map (·.sounding)

/-- The wire `live` (R45, R38). -/
def statusLive (s : State) : Bool := s.live

end Sys2Proof.Machine
end

