-- ==== Sys2Proof/Safety.lean ====
section
/-! DEFINITION. What a sound state of the block is: the invariants the spec states of its fields, which every
run from reset keeps. -/

namespace Sys2Proof.Safety

open Sys2Proof Sys2Proof.Machine

/-- The legal values of one voice record: gains 0..64 (R28, R29), `loopLength <= length` (R27), the cursor
inside the extent of an active voice (R24, R26), an increment that moves an active voice (R25), and the level
on its side of `sustainLevel` in Decay and Sustain (R193, R194). -/
abbrev VoiceOk (V : Voice) : Prop :=
  V.volume.toNat ≤ 64 ∧ V.panLeft.toNat ≤ 64 ∧ V.panRight.toNat ≤ 64 ∧
  V.loopLength.toNat ≤ V.length.toNat ∧
  (V.active = true → V.position.toNat < V.length.toNat ∧ 1 ≤ V.increment.toNat) ∧
  (V.phase = .decay → V.sustainLevel.toNat ≤ V.level.toNat) ∧
  (V.phase = .sustain → V.level = V.sustainLevel)

/-- The legal values of one source record (R42, R43): half-extents at least 1, `maxVol` 0..64, 1..128 buckets,
and a bucket 0..127 or 0xFF. -/
abbrev SourceOk (S : Source) : Prop :=
  1 ≤ S.hx.toNat ∧ 1 ≤ S.hy.toNat ∧ S.maxVol.toNat ≤ 64 ∧
  1 ≤ S.nb.toNat ∧ S.nb.toNat ≤ 128 ∧ (S.bucket.toNat < 128 ∨ S.bucket = 0xFF)

/-- The output buffer memory is in canonical form and lies below `4 x SPF` (R39). -/
abbrev BufferOk (spf : Nat) (m : Memory) : Prop := Memory.wf m ∧ ∀ c ∈ m, c.1 < bufferSize spf

/-- The assembler is empty or holds the words of one packet that has started and not finished, at most 6 (R48). -/
abbrev OpenPacketOk (ws : List Word) : Prop := decode ws = .incomplete ∧ ws.length ≤ 6

/-- A sound state: the instance's parameters meet R9, and every field holds only values the spec gives it. -/
structure Inv (s : State) : Prop where
  constsOk : s.consts.wf
  sizesOk : Config.sizesWf s.nv s.ni s.ns s.nl
  samplesOk : samplesWf s.samples
  voicesOk : ∀ V ∈ s.voices, VoiceOk V
  bufferOk : BufferOk s.consts.spf s.buffer
  sourcesOk : ∀ S ∈ s.sources, SourceOk S
  openPacketOk : OpenPacketOk s.openPacket

/-! ### The ways a run can stop, as statements use them -/

/-- The step answers a next state. -/
def Completes (o : Host.Outcome State Fault Refusal) : Prop := ∃ t, o = .next t

/-- The pieces of state that no step may change: the parameters of the instance and the sample memory
(R8, R9, R61). -/
def SameInstance (s t : State) : Prop :=
  t.consts = s.consts ∧ t.samples = s.samples ∧ t.nv = s.nv ∧ t.ni = s.ni ∧ t.ns = s.ns ∧ t.nl = s.nl

/-! ### Conditions the rules name -/

/-- The command names a slot or a source that its table does not have (R99). -/
def SlotOutOfRange (s : State) : Instr → Prop
  | .trig v _ _ _ _ _ _ _ _ _ => s.nv ≤ v.toNat
  | .stop v => s.nv ≤ v.toNat
  | .setgain v _ _ _ => s.nv ≤ v.toNat
  | .setrate v _ => s.nv ≤ v.toNat
  | .noteon v _ _ _ => s.nv ≤ v.toNat
  | .noteoff v => s.nv ≤ v.toNat
  | .updpos v _ _ => s.ns ≤ v.toNat
  | .mixframe => False
  | .wrreg _ _ => False

/-- `y` crosses the threshold on the side currently not selected (R43, R243). -/
abbrev Crosses (S : Source) (y : Half16) : Prop :=
  (S.facing = .front ∧ S.swBack.toInt < y.toInt) ∨ (S.facing = .back ∧ y.toInt < S.swFront.toInt)

/-- The bits of a written value that the register at address `a` holds, in a block with `ni` instruments, `ns`
sources and `nl` table entries (R37, R40, R42, R44); the others are reserved or belong to no register. -/
def implementedBits (ni ns nl a : Nat) : Word :=
  if a = 0 then 0x00000003
  else if 0x1000 ≤ a ∧ a < 0x1000 + 8 * ni then
    match (a - 0x1000) % 8 with
    | 0 => 0xFFFFFFFF
    | 1 => 0x000FFFFF
    | 2 => 0x000FFFFF
    | 3 => 0x00FFFFFF
    | 4 => 0xFFFFFFFF
    | 5 => 0xFFFF00FF
    | _ => 0
  else if 0x2000 ≤ a ∧ a < 0x2000 + 16 * ns then
    match (a - 0x2000) % 16 with
    | 0 => 0x00000007
    | 1 => 0x0000FFFF
    | 5 => 0x000000FF
    | 14 => 0x00FFFFFF
    | 15 => 0
    | _ => 0xFFFFFFFF
  else if 0x4000 ≤ a ∧ a < 0x4000 + 2 * nl then 0xFFFFFFFF
  else 0

/-! ### The frame that `MIXFRAME` mixes, as statements use it (R161) -/

/-- The number of voices that contribute to the frame mixed from `s` (R163). -/
def frameVoices (s : State) : Nat := s.voices.countP fun V => (turnStart V).active

/-- The contribution of a voice's turn at output index `i`, on the left (`right = false`) or the right. -/
def turnAt (s : State) (right : Bool) (i : Nat) (V : Voice) : Int :=
  let c := (voiceTurn s.samples s.ctrl s.consts.spf V).2.2.getD i (0, 0)
  if right then c.2 else c.1

/-- The accumulator at output index `i` after all voices: the sum of their contributions (R161, R162). -/
def frameSum (s : State) (right : Bool) (i : Nat) : Int := (s.voices.map (turnAt s right i)).sum

/-- The byte the frame mixed from `s` puts at output index `i` of a channel (R170, R171). -/
def frameByte (s : State) (right : Bool) (i : Nat) : Byte :=
  let sh := 6 + ceilLog2 (max (frameVoices s) 1)
  BitVec.ofInt 8 (clamp (asr (frameSum s right i + 2 ^ (sh - 1)) sh) (-128) 127)

end Sys2Proof.Safety
end

