-- ==== Sys2Proof/Certificates/Slice0/Obligations.lean ====
section
/-! DEFINITION. The statements for the provers, one for each entry of OBLIGATIONS.json. -/

open Sys2Proof Sys2Proof.Machine Sys2Proof.Safety

/-! ### Encoding and the command port (30_encoding.md) -/

/-- Decoding an encoded command gives it back, whatever follows, for every command with every operand. -/
def Obligations.DecodeEncodeRoundTrip : Prop :=
  ∀ (i : Instr) (rest : List Word), decode (encode i ++ rest) = .instr i rest

/-- What the decoder reads is exactly one packet at the front of the stream (R90, R95): of a command as many
words as its opcode calls for, of a reserved opcode one word; it waits only while operand words are missing. -/
def Obligations.DecodeTakesOnePacket : Prop :=
  (∀ (ws : List Word) (i : Instr) (rest : List Word), decode ws = .instr i rest →
    ∃ packet, ws = packet ++ rest ∧ packet.length = i.packetLength ∧ PacketWf packet = true ∧
      packet.head?.map opcOf = some i.opcode ∧ decode packet = .instr i []) ∧
  (∀ (ws : List Word) (o : Byte) (rest : List Word), decode ws = .reserved o rest →
    ∃ h, ws = h :: rest ∧ opcOf h = o ∧ operandCount o = none) ∧
  (∀ ws : List Word, decode ws = .incomplete →
    ws = [] ∨ ∃ h ops k, ws = h :: ops ∧ operandCount (opcOf h) = some k ∧ ops.length < k)

/-- The worked encodings of R104 decode to the commands they stand for, and encode to those words. -/
def Obligations.WorkedEncodings : Prop :=
  ∀ p ∈ ([(.trig 0 true 0x1000 0 0x100000 0x100000 66 64 64 64,
        [0x01000001, 0x00001000, 0x00000000, 0x00100000, 0x00100000, 0x00000042, 0x00404040]),
      (.trig 3 false 0 0 0 0 0 0 0 0, [0x01030000, 0, 0, 0, 0, 0, 0]),
      (.stop 2, [0x02020000]),
      (.setgain 1 64 64 0, [0x03010000, 0x00004040]),
      (.setgain 1 0xFB 100 32, [0x03010000, 0x002064FB]),
      (.setrate 0 4096, [0x04000000, 0x00001000]),
      (.noteon 1 2 72 50, [0x05010000, 0x00324802]),
      (.noteoff 1, [0x06010000]),
      (.updpos 0 120 0xFFFD, [0x07000000, 0xFFFD0078]),
      (.mixframe, [0x08000000]),
      (.wrreg 0x0000 3, [0x09000000, 0x00000003])] : List (Instr × List Word)),
    encode p.1 = p.2 ∧ decode p.2 = .instr p.1 []

/-- Ignored bits of header and operand words change nothing that is decoded (R91, R92), reserved bits of a written
register value change nothing that is stored (R37, R40, R42), and no encoding traps (R100). -/
def Obligations.IgnoredBitsHaveNoEffect : Prop :=
  (∀ (h h' : Word) (ws : List Word), opcOf h = opcOf h' →
    (opcOf h ≠ 0x08 → opcOf h ≠ 0x09 → slotOf h = slotOf h') →
    (opcOf h = 0x01 → h.getLsbD 0 = h'.getLsbD 0) →
    (opcOf h = 0x09 → immOf h = immOf h') →
    decode (h :: ws) = decode (h' :: ws)) ∧
  (∀ (h w w' : Word) (ws : List Word), opcOf h = 0x03 ∨ opcOf h = 0x05 →
    w.extractLsb' 0 24 = w'.extractLsb' 0 24 → decode (h :: w :: ws) = decode (h :: w' :: ws)) ∧
  (∀ (h w1 w2 w3 w4 w5 w w' : Word) (ws : List Word), opcOf h = 0x01 →
    w.extractLsb' 0 24 = w'.extractLsb' 0 24 →
    decode (h :: w1 :: w2 :: w3 :: w4 :: w5 :: w :: ws) = decode (h :: w1 :: w2 :: w3 :: w4 :: w5 :: w' :: ws)) ∧
  (∀ (s : State) (a : Half16) (v v' : Word),
    v &&& implementedBits s.ni s.ns s.nl a.toNat = v' &&& implementedBits s.ni s.ns s.nl a.toNat →
    exec (.wrreg a v) s = exec (.wrreg a v') s) ∧
  (∀ (i : Instr) (s : State), Completes (exec i s))

/-- A header with a reserved opcode, 0x00 or 0x0A..0xFF, is a packet of one word and a no-op (R98): only that
word is consumed, and the next word is taken as a header. -/
def Obligations.ReservedOpcodeIsOneWordNoOp : Prop :=
  ∀ (s : State) (h : Word) (rest : List Input), s.openPacket = [] → s.inputs = .word h :: rest →
    (opcOf h = 0x00 ∨ 0x0A ≤ (opcOf h).toNat) → step s = .next { s with inputs := rest }

/-- R99: a packet whose slot is out of range is taken whole and is a no-op; no other slot is touched. -/
def Obligations.OutOfRangeSlotIsNoOp : Prop :=
  ∀ (i : Instr) (s : State), SlotOutOfRange s i →
    exec i s = .next s ∧
    ∀ (ws : List Word) (rest : List Input), decode ws = .instr i [] → s.openPacket = [] →
      s.inputs = ws.map .word ++ rest → step s = .next { s with inputs := rest }

/-- R97: a gain byte 0x00..0x40 gives 0..64, 0x41..0x7F gives 64, 0x80..0xFF gives 0; the same for `VEL` of
`NOTEON` and for `maxVol` of `SRC_MAXVOL`. -/
def Obligations.GainFieldsClamp : Prop :=
  ∀ b : Byte,
    (b.toNat ≤ 0x40 → (gainOf b).toNat = b.toNat) ∧
    (0x41 ≤ b.toNat → b.toNat ≤ 0x7F → (gainOf b).toNat = 64) ∧
    (0x80 ≤ b.toNat → (gainOf b).toNat = 0) ∧
    (∀ (c : Config.Consts) (I : Instrument) (key : Byte), (noteStarted c I key b).volume = gainOf b) ∧
    (∀ (S : Source) (value : Word), value.extractLsb' 0 8 = b → (writeSource 5 value S).maxVol = gainOf b)

/-! ### Steps (00_scope.md R14, 30_encoding.md R95, 44_swap.md, 60_exceptions.md, 70_reset_and_hazards.md) -/

/-- A step runs the decoded command: when the words arriving complete a packet that decodes to `i`, the step is
`exec i` with the assembler empty and the packet consumed. -/
def Obligations.StepRunsDecodedPacket : Prop :=
  ∀ (s : State) (i : Instr) (ws : List Word) (rest : List Input), ws ≠ [] →
    decode (s.openPacket ++ ws) = .instr i [] → s.inputs = ws.map .word ++ rest →
    step s = exec i { s with openPacket := [], inputs := rest }

/-- R221: on `TICK` the live half flips and one Present goes out with the half now live and its two base
addresses; nothing else changes, the open packet included. -/
def Obligations.TickFlipsAndPresents : Prop :=
  ∀ (s : State) (rest : List Input), s.inputs = .tick :: rest →
    step s = .next { s with
      inputs := rest
      live := !s.live
      presented := s.presented ++
        [⟨!s.live, (!s.live).toNat * s.consts.spf, 2 * s.consts.spf + (!s.live).toNat * s.consts.spf⟩] }

/-- R297: on a tie the `TICK` step runs first, then the word is taken; a `MIXFRAME` that the word completes
runs with the flipped `live`, so it fills the half that stopped being live. -/
def Obligations.TickGoesFirstOnTie : Prop :=
  ∀ (s : State) (w : Word) (rest : List Input), s.inputs = .tickAndWord w :: rest →
    step s = step { s with inputs := .tick :: .word w :: rest } ∧
    ∃ t, step s = .next t ∧ t.inputs = .word w :: rest ∧ t.live = !s.live ∧
      (s.openPacket = [] → opcOf w = 0x08 → step t = exec .mixframe { t with inputs := rest })

/-- R95: a `TICK` while a packet is open executes at once, does not disturb the open packet and is ordered
before its command. -/
def Obligations.TickInsideOpenPacket : Prop :=
  ∀ (s : State) (i : Instr) (ws1 ws2 : List Word) (rest : List Input), ws1 ≠ [] → ws2 ≠ [] →
    decode (ws1 ++ ws2) = .instr i [] → s.openPacket = [] →
    s.inputs = ws1.map .word ++ .tick :: (ws2.map .word ++ rest) →
    ∃ t u, step s = .next t ∧
      t = { s with openPacket := ws1, inputs := .tick :: (ws2.map .word ++ rest) } ∧
      step t = .next u ∧ u.openPacket = ws1 ∧ u.live = !s.live ∧ u.presented.length = s.presented.length + 1 ∧
      u.voices = s.voices ∧ u.buffer = s.buffer ∧
      step u = exec i { u with openPacket := [], inputs := rest }

/-- While operand words are missing and nothing more arrives, the words are held and nothing else changes
(R95, R48, 93 U14); with nothing arriving at all the block waits (R321). -/
def Obligations.OpenPacketWaits : Prop :=
  ∀ (s : State) (ws : List Word), s.inputs = ws.map .word → decode (s.openPacket ++ ws) = .incomplete →
    step s = .next { s with openPacket := s.openPacket ++ ws, inputs := [] }

/-- R320, R321: the reset input puts every piece of state at its reset value; the parameters and the sample
memory stay, and no Present goes out. That what will arrive and what was emitted stay is the model's choice
(log entry 8). -/
def Obligations.ResetInputRestoresResetValues : Prop :=
  ∀ (s : State) (rest : List Input), s.inputs = .reset :: rest →
    step s = .next
      { consts := s.consts
        samples := s.samples
        voices := List.replicate s.nv Voice.reset
        ctrl := ⟨false, true⟩
        live := false
        buffer := []
        instruments := List.replicate s.ni Instrument.reset
        sources := List.replicate s.ns Source.reset
        lut := List.replicate s.nl ⟨0, 0⟩
        openPacket := []
        inputs := rest
        presented := s.presented }

/-- R290: the block raises no exception, no trap and no fault; every step completes. -/
def Obligations.StepAlwaysCompletes : Prop :=
  ∀ s : State, Completes (step s)

/-- R8, R9, R61: no step changes the parameters of the instance, the size of a table or the sample memory. -/
def Obligations.StepKeepsInstance : Prop :=
  ∀ s t : State, step s = .next t → SameInstance s t

/-- R38, R223: no command changes `live`, emits a Present event or touches the inputs; only `TICK` does. -/
def Obligations.NoCommandFlipsLiveOrPresents : Prop :=
  ∀ (i : Instr) (s t : State), exec i s = .next t →
    t.live = s.live ∧ t.presented = s.presented ∧ t.openPacket = s.openPacket ∧ t.inputs = s.inputs ∧
    t.consts = s.consts ∧ t.samples = s.samples

/-- R39, R66: only `MIXFRAME` writes the output buffer memory; every other command leaves every byte. -/
def Obligations.OnlyMixframeWritesBuffer : Prop :=
  ∀ (i : Instr) (s t : State), i ≠ .mixframe → exec i s = .next t →
    ∀ a, Memory.read t.buffer a = Memory.read s.buffer a

/-- R68, R271: only `WRREG` writes a configuration register, and `WRREG` writes no voice, no buffer byte and no
`live`. The state of a source (R43) is no register; only `UPDPOS` writes it. -/
def Obligations.OnlyWrregWritesRegisters : Prop :=
  (∀ (i : Instr) (s t : State), (∀ a v, i ≠ .wrreg a v) → exec i s = .next t →
    t.ctrl = s.ctrl ∧ t.instruments = s.instruments ∧ t.lut = s.lut ∧
    ∀ (k : Nat) (S T : Source), s.sources[k]? = some S → t.sources[k]? = some T →
      T = { S with x := T.x, y := T.y, facing := T.facing, bucket := T.bucket } ∧
      ((∀ v x y, i ≠ .updpos v x y) → T = S)) ∧
  (∀ (a : Half16) (v : Word) (s t : State), exec (.wrreg a v) s = .next t →
    t.voices = s.voices ∧ t.live = s.live ∧ t.buffer = s.buffer ∧
    ∀ (k : Nat) (S T : Source), s.sources[k]? = some S → t.sources[k]? = some T →
      T.x = S.x ∧ T.y = S.y ∧ T.facing = S.facing ∧ T.bucket = S.bucket)

/-! ### Voice commands (40_voice.md) -/

/-- R121: `TRIG` with a present sample of non-zero length writes every field of the named voice, the cursor,
loop length, increment and gains clamped, and nothing else; with `P = 0` or `length = 0` or a slot out of range
it is a no-op. -/
def Obligations.TrigStartsVoice : Prop :=
  ∀ (s : State) (slot : Byte) (base startPos length loopLength inc : Word) (vol panL panR : Byte),
    exec (.trig slot false base startPos length loopLength inc vol panL panR) s = .next s ∧
    (length = 0 ∨ s.nv ≤ slot.toNat →
      exec (.trig slot true base startPos length loopLength inc vol panL panR) s = .next s) ∧
    (length ≠ 0 → slot.toNat < s.nv →
      exec (.trig slot true base startPos length loopLength inc vol panL panR) s = .next { s with
        voices := s.voices.set slot.toNat
          { active := true
            base := base
            position := if startPos.toNat < length.toNat then startPos else length - 1
            increment := if inc = 0 then 1 else inc
            length := length
            loopLength := if loopLength.toNat ≤ length.toNat then loopLength else length
            volume := BitVec.ofNat 7 (clampg vol)
            panLeft := BitVec.ofNat 7 (clampg panL)
            panRight := BitVec.ofNat 7 (clampg panR)
            envEn := false
            sounding := false
            phase := .attack
            level := 0
            attack := 0
            decay := 0
            sustainLevel := 0
            release := 0 } })

/-- R122: `SETGAIN` writes the three gains of the named voice, active or not, and nothing else; out of range it is a
no-op. -/
def Obligations.SetgainWritesGains : Prop :=
  ∀ (s : State) (slot vol panL panR : Byte),
    (s.nv ≤ slot.toNat → exec (.setgain slot vol panL panR) s = .next s) ∧
    ∀ V : Voice, s.voices[slot.toNat]? = some V →
      exec (.setgain slot vol panL panR) s = .next { s with
        voices := s.voices.set slot.toNat { V with
          volume := BitVec.ofNat 7 (clampg vol)
          panLeft := BitVec.ofNat 7 (clampg panL)
          panRight := BitVec.ofNat 7 (clampg panR) } }

/-- R123: `SETRATE` writes the increment of the named voice, 0 as 1, and nothing else; out of range it is a no-op. -/
def Obligations.SetrateWritesIncrement : Prop :=
  ∀ (s : State) (slot : Byte) (inc : Word),
    (s.nv ≤ slot.toNat → exec (.setrate slot inc) s = .next s) ∧
    ∀ V : Voice, s.voices[slot.toNat]? = some V →
      exec (.setrate slot inc) s = .next { s with
        voices := s.voices.set slot.toNat { V with increment := if inc = 0 then 1 else inc } }

/-- R124: `STOP` makes a voice without envelope inactive at once, and forces Release on a voice with one; nothing
else changes; out of range it is a no-op. -/
def Obligations.StopEndsOrReleases : Prop :=
  ∀ (s : State) (slot : Byte), (s.nv ≤ slot.toNat → exec (.stop slot) s = .next s) ∧
    ∀ V : Voice, s.voices[slot.toNat]? = some V →
    (V.envEn = false → exec (.stop slot) s = .next { s with
      voices := s.voices.set slot.toNat { V with active := false } }) ∧
    (V.envEn = true → exec (.stop slot) s = .next { s with
      voices := s.voices.set slot.toNat { V with sounding := false, phase := .release } })

/-- R125: only `TRIG`, `NOTEON` and `UPDPOS` activate a voice; under every other command an inactive voice stays
inactive. -/
def Obligations.InactiveVoiceStaysInactive : Prop :=
  ∀ (i : Instr) (s t : State) (k : Nat) (V W : Voice), i.opcode ≠ 0x01 → i.opcode ≠ 0x05 → i.opcode ≠ 0x07 →
    exec i s = .next t → s.voices[k]? = some V → V.active = false → t.voices[k]? = some W → W.active = false

/-! ### Envelope (43_envelope.md) -/

/-- R200: `NOTEON` of a present instrument writes every field of the named voice from the instrument record, the
key and the velocity, and nothing else; with a slot or an instrument out of range or an absent sample it is a
no-op. -/
def Obligations.NoteonStartsNote : Prop :=
  ∀ (s : State) (slot instr key vel : Byte),
    (s.nv ≤ slot.toNat ∨ s.ni ≤ instr.toNat → exec (.noteon slot instr key vel) s = .next s) ∧
    ∀ I : Instrument, s.instruments[instr.toNat]? = some I →
      (I.nsamples = 0 → exec (.noteon slot instr key vel) s = .next s) ∧
      (I.nsamples ≠ 0 → slot.toNat < s.nv →
        exec (.noteon slot instr key vel) s = .next { s with
          voices := s.voices.set slot.toNat
            { active := true
              base := I.base
              position := 0
              increment := BitVec.ofNat 32
                (max 1 (min (noteRate s.consts I.nativeRate.toNat key.toNat * 4096 / s.consts.mixRate) (2 ^ 32 - 1)))
              length := BitVec.ofNat 32 (I.nsamples.toNat * 4096)
              loopLength := BitVec.ofNat 32 ((I.nsamples.toNat - min I.loopStart.toNat I.nsamples.toNat) * 4096)
              volume := BitVec.ofNat 7 (clampg vel)
              panLeft := 64
              panRight := 64
              envEn := true
              sounding := true
              phase := .attack
              level := 0
              attack := I.attack
              decay := I.decay
              sustainLevel := I.sustainLevel
              release := I.release } })

/-- R201: key 60 keeps the native rate, each key above multiplies once more by `SEMI_UP` and each key below once
more by `SEMI_DOWN`, 16 bits dropped each time, and keys above 127 count as 127. -/
def Obligations.NoteRateIteratesSemitones : Prop :=
  ∀ (c : Config.Consts) (native key : Nat),
    noteRate c native 60 = native ∧
    (60 ≤ key → key < 127 → noteRate c native (key + 1) = noteRate c native key * c.semiUp / 65536) ∧
    (key < 60 → noteRate c native key = noteRate c native (key + 1) * c.semiDown / 65536) ∧
    (127 ≤ key → noteRate c native key = noteRate c native 127)

/-- R203: `NOTEOFF` clears `sounding` and forces Release, whatever the voice does, and changes nothing else; out of
range it is a no-op. -/
def Obligations.NoteoffForcesRelease : Prop :=
  ∀ (s : State) (slot : Byte), (s.nv ≤ slot.toNat → exec (.noteoff slot) s = .next s) ∧
    ∀ V : Voice, s.voices[slot.toNat]? = some V →
      exec (.noteoff slot) s = .next { s with
        voices := s.voices.set slot.toNat { V with sounding := false, phase := .release } }

/-- R191: one envelope tick performs the action of exactly the phase the voice is in. Numbers are those the
pseudocode computes; a field not named keeps its value. -/
def Obligations.EnvelopeTickPerPhase : Prop :=
  ∀ V : Voice,
    (V.phase = .attack →
      envTick V = if V.attack.toNat = 0 ∨ 255 ≤ V.level.toNat + 256 / V.attack.toNat
        then { V with level := 255, phase := .decay }
        else { V with level := BitVec.ofNat 8 (V.level.toNat + 256 / V.attack.toNat) }) ∧
    (V.phase = .decay → V.sustainLevel.toNat < V.level.toNat →
      let d := max 1 ((V.level.toNat - V.sustainLevel.toNat) / V.decay.toNat)
      envTick V = if V.decay.toNat = 0 ∨ V.level.toNat - d ≤ V.sustainLevel.toNat
        then { V with level := V.sustainLevel, phase := .sustain }
        else { V with level := BitVec.ofNat 8 (V.level.toNat - d) }) ∧
    (V.phase = .decay → V.level.toNat ≤ V.sustainLevel.toNat →
      envTick V = if V.decay.toNat = 0 then { V with level := V.sustainLevel, phase := .sustain }
        else { V with phase := .sustain }) ∧
    (V.phase = .sustain → envTick V = V) ∧
    (V.phase = .release →
      let l := if V.release.toNat = 0 then 0 else V.level.toNat - max 1 (V.level.toNat / V.release.toNat)
      envTick V = if l = 0 then { V with level := 0, active := false } else { V with level := BitVec.ofNat 8 l })

/-- R33, R196: the level never falls in Attack, never rises in Decay or Release, does not change in Sustain, and in
Decay does not pass `sustainLevel`; a tick changes no field but `level`, `phase` and `active`. -/
def Obligations.EnvelopeLevelMonotone : Prop :=
  ∀ V : Voice,
    (V.phase = .attack → V.level.toNat ≤ (envTick V).level.toNat) ∧
    (V.phase = .decay → V.sustainLevel.toNat ≤ V.level.toNat →
      (envTick V).level.toNat ≤ V.level.toNat ∧ V.sustainLevel.toNat ≤ (envTick V).level.toNat) ∧
    (V.phase = .sustain → (envTick V).level = V.level) ∧
    (V.phase = .release → (envTick V).level.toNat ≤ V.level.toNat) ∧
    envTick V = { V with
      level := (envTick V).level, phase := (envTick V).phase, active := (envTick V).active }

/-- R192, R193, R195, R196: Attack with a rate up to 256 ends within 255 ticks, Decay within as many ticks as the
level stands above `sustainLevel` (and at least one), Release within 255 ticks with the voice deactivated at
level 0; Attack with a rate above 256 never moves the level. The bound for Decay is the model's reading (log entry 24,
DEDUCED): R196 says `255 - sustainLevel` ticks, which at `sustainLevel = 255` would be none, where the pseudocode of
R191 and the text of R193 take one. -/
def Obligations.EnvelopePhasesEnd : Prop :=
  ∀ V : Voice,
    (V.phase = .attack → V.attack.toNat ≤ 256 →
      ∃ k ≤ 255, (envTick^[k] V).phase = .decay ∧ (envTick^[k] V).level = 255) ∧
    (V.phase = .decay → V.sustainLevel.toNat ≤ V.level.toNat →
      ∃ k ≤ max 1 (V.level.toNat - V.sustainLevel.toNat),
        (envTick^[k] V).phase = .sustain ∧ (envTick^[k] V).level = V.sustainLevel) ∧
    (V.phase = .release →
      ∃ k ≤ 255, (envTick^[k] V).level = 0 ∧ (envTick^[k] V).active = false ∧ (envTick^[k] V).phase = .release) ∧
    (V.phase = .attack → 256 < V.attack.toNat → V.level.toNat < 255 → ∀ k, envTick^[k] V = V)

/-! ### Sample fetch and cursor advance (41_resampler.md) -/

/-- R145: the cursor advances by the increment in 33 bits; below `length` it is stored, past it a voice without
loop ends with the low 32 bits stored, and a looping one subtracts `loopLength` as often as the `while` loop of
the rule does. -/
def Obligations.AdvanceFollowsWhileLoop : Prop :=
  ∀ V : Voice,
    let p := V.position.toNat + V.increment.toNat
    (p < V.length.toNat → advance V = { V with position := BitVec.ofNat 32 p }) ∧
    (V.length.toNat ≤ p → V.loopLength = 0 →
      advance V = { V with active := false, position := BitVec.ofNat 32 (p % 2 ^ 32) }) ∧
    (V.length.toNat ≤ p → V.loopLength ≠ 0 → V.loopLength.toNat ≤ V.length.toNat → ∀ fuel, p ≤ fuel →
      advance V = { V with
        position := BitVec.ofNat 32 (wrapLoop V.length.toNat V.loopLength.toNat fuel p) })

/-- R147: a wrapped cursor lies in the loop region and keeps its phase: what was subtracted is
`k = (p - length) / loopLength + 1` loop lengths. -/
def Obligations.LoopWrapKeepsPhase : Prop :=
  ∀ V : Voice, V.loopLength ≠ 0 → V.loopLength.toNat ≤ V.length.toNat →
    V.length.toNat ≤ V.position.toNat + V.increment.toNat →
    (advance V).active = V.active ∧
    V.length.toNat - V.loopLength.toNat ≤ (advance V).position.toNat ∧
    (advance V).position.toNat < V.length.toNat ∧
    let p := V.position.toNat + V.increment.toNat
    p = (advance V).position.toNat + ((p - V.length.toNat) / V.loopLength.toNat + 1) * V.loopLength.toNat

/-- R148: after every advance of a sound voice that stays active, `position < length`. -/
def Obligations.PositionStaysInExtent : Prop :=
  ∀ V : Voice, VoiceOk V → (advance V).active = true → (advance V).position.toNat < (advance V).length.toNat

/-- R62, R141, R142, R143: a populated byte is read as a signed number. The nearest fetch is the sample at
`position >> 12`; the interpolated fetch is the blend, at the fraction `position[11:0]`, of that sample and the one at
the next index, or at index 0 after the final one. The blend is `s0 + (((s1 - s0) * f) >>a 12)`, the linear blend
rounded down, is `s0` at fraction 0, lies between the two samples, and rounds as the rule's examples do; with one
sample index both reads are of index 0. That the blend may equal `s1`, where R143 remarks that `s1` is never reached,
is the model's reading (log entry 24, DEDUCED). -/
def Obligations.InterpolationBlends : Prop :=
  (∀ (m : List Host.Cell) (a : Word) (b : Byte), samplesWf m → (a.toNat, b) ∈ m → sampleRead m a = b.toInt) ∧
  (∀ (m : List Host.Cell) (V : Voice),
    fetchSample m false V = sampleRead m (V.base + BitVec.ofNat 32 (V.position.toNat / 4096))) ∧
  (∀ (m : List Host.Cell) (V : Voice),
    let i := V.position.toNat / 4096
    let n := (V.length.toNat + 4095) / 4096
    let j := if n ≤ i + 1 then 0 else i + 1
    let s0 := sampleRead m (V.base + BitVec.ofNat 32 i)
    let s1 := sampleRead m (V.base + BitVec.ofNat 32 j)
    fetchSample m true V = s0 + (s1 - s0) * (V.position.toNat % 4096 : Nat) / 4096 ∧
    fetchSample m true V = blend s0 s1 (V.position.toNat % 4096)) ∧
  (∀ (s0 s1 : Int) (f : Nat), f < 4096 →
    blend s0 s1 f = (s0 * (4096 - f) + s1 * f) / 4096 ∧
    min s0 s1 ≤ blend s0 s1 f ∧ blend s0 s1 f ≤ max s0 s1 ∧ blend s0 s1 0 = s0) ∧
  blend 10 (-20) 1 = 9 ∧ blend (-20) 10 1 = -20 ∧
  (∀ (m : List Host.Cell) (V : Voice), V.active = true → VoiceOk V → sampleCount V = 1 →
    fetchSample m true V = sampleRead m V.base)

/-- R63: a fetch of a sound active voice reads only bytes of its extent, indices 0 to `nsamp - 1` from `base`: two
sample memories that agree there give the same value, in both modes. -/
def Obligations.FetchReadsOnlyItsExtent : Prop :=
  ∀ (m m' : List Host.Cell) (interp : Bool) (V : Voice), VoiceOk V → V.active = true →
    (∀ i < (V.length.toNat + 4095) / 4096,
      sampleByte m (V.base + BitVec.ofNat 32 i) = sampleByte m' (V.base + BitVec.ofNat 32 i)) →
    fetchSample m interp V = fetchSample m' interp V

/-! ### The mixer (42_mixer.md) -/

/-- R160, R161, R171: `MIXFRAME` completes; each voice ends as its turn leaves it; the fill half of the left
channel, and in stereo of the right channel, holds the sums of all turns shifted, rounded and clamped; every
other byte and every other piece of state is unchanged. -/
def Obligations.MixframeFillsTheFillHalf : Prop :=
  ∀ s : State, Memory.wf s.buffer →
    ∃ t, exec .mixframe s = .next t ∧
      t = { s with
        voices := s.voices.map fun V => (voiceTurn s.samples s.ctrl s.consts.spf V).1
        buffer := t.buffer } ∧
      (∀ i < s.consts.spf, Memory.read t.buffer (outAddr s.consts.spf false (!s.live) i) = frameByte s false i) ∧
      (s.ctrl.stereo = true →
        ∀ i < s.consts.spf, Memory.read t.buffer (outAddr s.consts.spf true (!s.live) i) = frameByte s true i) ∧
      ∀ a, (∀ i < s.consts.spf, a ≠ outAddr s.consts.spf false (!s.live) i) →
        (s.ctrl.stereo = true → ∀ i < s.consts.spf, a ≠ outAddr s.consts.spf true (!s.live) i) →
        Memory.read t.buffer a = Memory.read s.buffer a

/-- R161, R163 to R165: a voice's turn is its envelope tick if it has one, then fetch and advance at each output
index while it is active, with one gain for the whole frame; after its end it contributes nothing. -/
def Obligations.VoiceTurnPlaysUntilItEnds : Prop :=
  ∀ (m : List Host.Cell) (c : Ctrl) (spf : Nat) (V : Voice),
    let W := if V.active = true ∧ V.envEn = true then envTick V else V
    let g := if W.envEn = true then W.volume.toNat * W.level.toNat / 256 else W.volume.toNat
    let r := voiceTurn m c spf V
    r.2.1 = W.active ∧ r.2.2.length = spf ∧
    (∀ i < spf, r.2.2[i]? = some
      (if (advance^[i] W).active = true
        then contribution c.stereo g W (fetchSample m c.interp (advance^[i] W)) else (0, 0))) ∧
    ∃ k ≤ spf, r.1 = advance^[k] W ∧ (∀ j < k, (advance^[j] W).active = true) ∧ (k < spf → r.1.active = false)

/-- R160, R146: `MIXFRAME` changes no field of a voice but `position`, `active`, `phase` and `level`; the last two
only with an envelope, and an inactive voice not at all. -/
def Obligations.MixframeVoiceFrame : Prop :=
  ∀ (s t : State) (k : Nat) (V W : Voice), exec .mixframe s = .next t → s.voices[k]? = some V →
    t.voices[k]? = some W →
    W = { V with position := W.position, active := W.active, phase := W.phase, level := W.level } ∧
    (V.envEn = false → W.phase = V.phase ∧ W.level = V.level) ∧
    (V.active = false → W = V)

/-- R166 to R168: the applier. In stereo each ear gets the whole product divided by 64 toward zero, with its own pan
whatever that pan is: 0 with a pan of 0, `val * g` with a pan of 64, odd in `val`, at most 8192 in magnitude; in mono `val * g`, without the pans. -/
def Obligations.ApplierProperties : Prop :=
  ∀ (V : Voice) (g : Nat) (val : Int), -128 ≤ val → val ≤ 127 → g ≤ 64 →
    V.panLeft.toNat ≤ 64 → V.panRight.toNat ≤ 64 →
    contribution false g V val = (val * g, 0) ∧
    (contribution true g V val).1 = Int.tdiv (val * g * V.panLeft.toNat) 64 ∧
    (contribution true g V val).2 = Int.tdiv (val * g * V.panRight.toNat) 64 ∧
    (V.panRight = 0 → (contribution true g V val).2 = 0) ∧
    (V.panLeft = 0 → (contribution true g V val).1 = 0) ∧
    (V.panLeft = 64 → (contribution true g V val).1 = val * g) ∧
    (V.panRight = 64 → (contribution true g V val).2 = val * g) ∧
    contribution true g V (-val) = (-(contribution true g V val).1, -(contribution true g V val).2) ∧
    (∀ stereo, -8192 ≤ (contribution stereo g V val).1 ∧ (contribution stereo g V val).1 ≤ 8128 ∧
      -8192 ≤ (contribution stereo g V val).2 ∧ (contribution stereo g V val).2 ≤ 8128)

/-- R169: after all voices each accumulator is at most `n * 8192` in magnitude, and that at most 2^21. -/
def Obligations.AccumulatorsNeverOverflow : Prop :=
  ∀ (s : State) (right : Bool) (i : Nat), Inv s →
    |frameSum s right i| ≤ frameVoices s * 8192 ∧ frameVoices s ≤ s.nv ∧ s.nv * 8192 ≤ 2 ^ 21

/-- R171, R172: in a sound state the shifted value of every accumulator is already in -128..127, so the clamp
changes nothing. -/
def Obligations.ClampNeverChangesAFrame : Prop :=
  ∀ (s : State) (right : Bool) (i : Nat), Inv s →
    -128 ≤ downscale (downscaleShift (frameVoices s)) (frameSum s right i) ∧
    downscale (downscaleShift (frameVoices s)) (frameSum s right i) ≤ 127 ∧
    (frameByte s right i).toInt = downscale (downscaleShift (frameVoices s)) (frameSum s right i)

/-- R170: the shift is 6 plus the least `k` with `max(n, 1) ≤ 2^k`, and the downscale rounds to nearest, ties
toward plus infinity. -/
def Obligations.DownscaleRoundsToNearest : Prop :=
  (∀ n : Nat, 6 ≤ downscaleShift n ∧ max n 1 ≤ 2 ^ (downscaleShift n - 6) ∧
    ∀ k, max n 1 ≤ 2 ^ k → downscaleShift n ≤ 6 + k) ∧
  (∀ (sh : Nat) (acc q : Int), 1 ≤ sh →
    (downscale sh acc = q ↔ q * 2 ^ sh ≤ acc + 2 ^ (sh - 1) ∧ acc + 2 ^ (sh - 1) < (q + 1) * 2 ^ sh))

/-- R175: with no active voice `n` is 0, the shift 6, every accumulator 0, the whole fill half is filled with 0x00,
and no voice changes. -/
def Obligations.NoActiveVoiceMixesSilence : Prop :=
  ∀ s : State, Memory.wf s.buffer → (∀ V ∈ s.voices, V.active = false) →
    frameVoices s = 0 ∧ downscaleShift (frameVoices s) = 6 ∧ (∀ right i, frameSum s right i = 0) ∧
    ∃ t, exec .mixframe s = .next t ∧ t.voices = s.voices ∧
      ∀ i < s.consts.spf, Memory.read t.buffer (outAddr s.consts.spf false (!s.live) i) = 0x00 ∧
        (s.ctrl.stereo = true → Memory.read t.buffer (outAddr s.consts.spf true (!s.live) i) = 0x00)

/-- R75, R76: a `TICK` that follows a finished `MIXFRAME` makes the bytes it wrote the live half, and the sink,
reading from the base addresses of that Present event, sees all of them. -/
def Obligations.TickHandsOffTheMixedFrame : Prop :=
  ∀ (s : State) (h : Word) (rest : List Input), Memory.wf s.buffer → s.openPacket = [] → opcOf h = 0x08 →
    s.inputs = .word h :: .tick :: rest →
    ∃ t u p, step s = .next t ∧ step t = .next u ∧ u.presented = s.presented ++ [p] ∧
      p.half = !s.live ∧ u.live = p.half ∧
      ∀ i < s.consts.spf, sinkRead u (p.baseL + i) = .ok (frameByte s false i) ∧
        (s.ctrl.stereo = true → sinkRead u (p.baseR + i) = .ok (frameByte s true i))

/-! ### The positional mapper (45_positional.md) -/

/-- R240, corner cases a and b: `UPDPOS` of a source out of range or disabled is a no-op. -/
def Obligations.UpdposOfDisabledSourceIsNoOp : Prop :=
  ∀ (s : State) (slot : Byte) (x y : Half16),
    (∀ S, s.sources[slot.toNat]? = some S → S.en = false) → exec (.updpos slot x y) s = .next s

/-- R240, R247: in synthetic mode a flip retriggers voice `vA` on the sample set of the new facing, at position 0
(a no-op for a set of length 0); without a flip only its gains and increment are refreshed. The source takes the
new position and facing. Nothing else changes; with `vA` out of range no voice does. -/
def Obligations.UpdposSyntheticMode : Prop :=
  ∀ (s : State) (slot : Byte) (x y : Half16) (S : Source),
    s.sources[slot.toNat]? = some S → S.en = true → S.lutMode = false →
    let dx := x.toInt - S.cx.toInt
    let dy := y.toInt - S.cy.toInt
    let vol : Gain := BitVec.ofNat 7 (distanceVolume dx dy S.hx.toNat S.hy.toNat S.maxVol.toNat)
    let panR : Gain := BitVec.ofNat 7 (panRightOf dx S.hx.toNat)
    let panL : Gain := BitVec.ofNat 7 (panLeftOf dx S.hx.toNat)
    (¬ Crosses S y →
      let inc := if S.facing = .front then S.fInc else S.bInc
      exec (.updpos slot x y) s = .next { s with
        sources := s.sources.set slot.toNat { S with x := x, y := y }
        voices := s.voices.modify S.vA.toNat fun V => { V with
          volume := vol, panLeft := panL, panRight := panR, increment := if inc = 0 then 1 else inc } }) ∧
    (Crosses S y →
      let f : Facing := if S.facing = .front then .back else .front
      let b := if f = .front then S.fBase else S.bBase
      let L := if f = .front then S.fLen else S.bLen
      let LL := if f = .front then S.fLoop else S.bLoop
      let inc := if f = .front then S.fInc else S.bInc
      exec (.updpos slot x y) s = .next { s with
        sources := s.sources.set slot.toNat { S with x := x, y := y, facing := f }
        voices := if L = 0 then s.voices else s.voices.set S.vA.toNat (triggered b 0 L LL inc vol panL panR) })

/-- R240, R250, R252, R253: in LUT mode a change of bucket (or, with `FBSEL`, of facing) triggers the pair of the
table entry, the left ear on `vA` with pans 64, 0 and the right ear on `vB` with pans 0, 64, both at position 0 on
the front set's length, loop and increment; an entry outside the table triggers nothing; without a change only
the gains are refreshed. The source takes the new position, facing and bucket. Nothing else changes. -/
def Obligations.UpdposLutMode : Prop :=
  ∀ (s : State) (slot : Byte) (x y : Half16) (S : Source),
    s.sources[slot.toNat]? = some S → S.en = true → S.lutMode = true →
    let dx := x.toInt - S.cx.toInt
    let dy := y.toInt - S.cy.toInt
    let vol : Gain := BitVec.ofNat 7 (distanceVolume dx dy S.hx.toNat S.hy.toNat S.maxVol.toNat)
    let bk := azimuthBucket dx S.hx.toNat S.nb.toNat
    ∀ f : Facing, (Crosses S y → f ≠ S.facing) → (¬ Crosses S y → f = S.facing) →
    let e := S.lutBase.toNat + (if S.fbSel = true ∧ f = .back then S.nb.toNat else 0) + bk
    (bk = S.bucket.toNat → (S.fbSel = true → ¬ Crosses S y) →
      exec (.updpos slot x y) s = .next { s with
        sources := s.sources.set slot.toNat { S with x := x, y := y, facing := f }
        voices := (s.voices.modify S.vA.toNat fun V => { V with volume := vol, panLeft := 64, panRight := 0 }).modify
          S.vB.toNat fun V => { V with volume := vol, panLeft := 0, panRight := 64 } }) ∧
    (bk ≠ S.bucket.toNat ∨ (S.fbSel = true ∧ Crosses S y) →
      (s.nl ≤ e ∨ S.fLen = 0 → exec (.updpos slot x y) s = .next { s with
        sources := s.sources.set slot.toNat { S with x := x, y := y, facing := f, bucket := BitVec.ofNat 8 bk } }) ∧
      (∀ E : LutEntry, s.lut[e]? = some E → S.fLen ≠ 0 → exec (.updpos slot x y) s = .next { s with
        sources := s.sources.set slot.toNat { S with x := x, y := y, facing := f, bucket := BitVec.ofNat 8 bk }
        voices := (s.voices.set S.vA.toNat (triggered E.baseL 0 S.fLen S.fLoop S.fInc vol 64 0)).set
          S.vB.toNat (triggered E.baseR 0 S.fLen S.fLoop S.fInc vol 0 64) }))

/-- R241: the pan law is a crossfade, `panL + panR = 64`, 32/32 at the center, saturating at 64/0 and 0/64 at the
lateral extremes, rising to the right, and rounded down in between. -/
def Obligations.PanIsLinearCrossfade : Prop :=
  ∀ (dx : Int) (hx : Nat), 1 ≤ hx →
    panLeftOf dx hx + panRightOf dx hx = 64 ∧
    panRightOf 0 hx = 32 ∧
    (dx ≤ -hx → panRightOf dx hx = 0) ∧
    (hx ≤ dx → panRightOf dx hx = 64) ∧
    (-hx ≤ dx → dx ≤ hx → (panRightOf dx hx : Int) = (dx + hx) * 64 / (2 * hx)) ∧
    (∀ dx' : Int, dx ≤ dx' → panRightOf dx hx ≤ panRightOf dx' hx)

/-- R242: the distance law is `maxVol * (1 - normalizedDistance)` rounded down, with the max-norm of the two
offsets, each normalized by its own half-extent and clamped at 1: `maxVol` at the center, 0 at or beyond a
half-extent. -/
def Obligations.DistanceIsChebyshev : Prop :=
  ∀ (dx dy : Int) (hx hy maxVol : Nat), 1 ≤ hx → 1 ≤ hy →
    ((distanceVolume dx dy hx hy maxVol : Int) =
      ⌊(maxVol : ℚ) * (1 - max (min (|(dx : ℚ)|) hx / hx) (min (|(dy : ℚ)|) hy / hy))⌋) ∧
    distanceVolume dx dy hx hy maxVol =
      min (maxVol * (hx - min dx.natAbs hx) / hx) (maxVol * (hy - min dy.natAbs hy) / hy) ∧
    distanceVolume 0 0 hx hy maxVol = maxVol ∧
    (hx ≤ dx.natAbs ∨ hy ≤ dy.natAbs → distanceVolume dx dy hx hy maxVol = 0)

/-- R243, R244: `UPDPOS` changes the facing of its source only when `y` crosses the threshold on the side not
selected, and never while `y` is in the dead zone; no command changes the facing of another source. -/
def Obligations.FacingHasHysteresis : Prop :=
  ∀ (i : Instr) (s t : State) (k : Nat) (S T : Source), exec i s = .next t →
    s.sources[k]? = some S → t.sources[k]? = some T →
    (T.facing ≠ S.facing → ∃ slot x y, i = .updpos slot x y ∧ slot.toNat = k ∧ S.en = true ∧ Crosses S y) ∧
    (∀ slot x y, i = .updpos slot x y → S.swFront.toInt ≤ y.toInt → y.toInt ≤ S.swBack.toInt → T.facing = S.facing)

/-- R251: the azimuth bucket is one of `nb` equal parts of the clamped offset, 0 at the left extreme, `nb - 1` at the
right, `nb / 2` at the center, and never the reset value 0xFF, so that the first lookup after reset is a change. -/
def Obligations.AzimuthBucketInRange : Prop :=
  ∀ (dx : Int) (hx nb : Nat), 1 ≤ hx → 1 ≤ nb → nb ≤ 128 →
    azimuthBucket dx hx nb < nb ∧
    (-hx ≤ dx → dx ≤ hx → (azimuthBucket dx hx nb : Int) = min ((dx + hx) * nb / (2 * hx)) (nb - 1)) ∧
    (∀ (S : Source) (flip : Bool), S.bucket = 0xFF → bucketChanged S (azimuthBucket dx hx nb) flip = true) ∧
    (dx ≤ -hx → azimuthBucket dx hx nb = 0) ∧
    (hx ≤ dx → azimuthBucket dx hx nb = nb - 1) ∧
    azimuthBucket 0 hx nb = nb / 2 ∧
    azimuthBucket dx hx nb ≠ 0xFF

/-- R252: two voices triggered as a pair stay phase-locked: with the same cursor, increment, length and loop
length, and no envelope, they have the same cursor and the same activity after every `MIXFRAME`. -/
def Obligations.PairStaysPhaseLocked : Prop :=
  ∀ (s t : State) (a b : Nat) (A B A' B' : Voice), exec .mixframe s = .next t →
    s.voices[a]? = some A → s.voices[b]? = some B → t.voices[a]? = some A' → t.voices[b]? = some B' →
    A.envEn = false → B.envEn = false → A.active = B.active → A.position = B.position →
    A.increment = B.increment → A.length = B.length → A.loopLength = B.loopLength →
    A'.position = B'.position ∧ A'.active = B'.active ∧ A'.increment = B'.increment ∧
    A'.length = B'.length ∧ A'.loopLength = B'.loopLength

/-! ### Configuration (46_config.md) -/

/-- R37, R270: `WRREG 0x0000` writes `INTERP` and `STEREO` from bits 0 and 1, and nothing else. -/
def Obligations.WrregWritesCtrl : Prop :=
  ∀ (s : State) (v : Word),
    exec (.wrreg 0 v) s = .next { s with ctrl := ⟨v.getLsbD 0, v.getLsbD 1⟩ }

/-- R272: `WRREG 0x1000 + 8 i + k` writes the fields of word `k` of instrument `i`, and nothing else. -/
def Obligations.WrregWritesInstrument : Prop :=
  ∀ (s : State) (a : Half16) (v : Word) (i : Nat) (I : Instrument), s.ni ≤ 256 → s.instruments[i]? = some I →
    let wrote (J : Instrument) : Prop := exec (.wrreg a v) s = .next { s with instruments := s.instruments.set i J }
    (a.toNat = 0x1000 + 8 * i → wrote { I with base := v }) ∧
    (a.toNat = 0x1000 + 8 * i + 1 → wrote { I with nsamples := v.extractLsb' 0 20 }) ∧
    (a.toNat = 0x1000 + 8 * i + 2 → wrote { I with loopStart := v.extractLsb' 0 20 }) ∧
    (a.toNat = 0x1000 + 8 * i + 3 → wrote { I with nativeRate := v.extractLsb' 0 24 }) ∧
    (a.toNat = 0x1000 + 8 * i + 4 → wrote { I with attack := v.extractLsb' 0 16, decay := v.extractLsb' 16 16 }) ∧
    (a.toNat = 0x1000 + 8 * i + 5 →
      wrote { I with sustainLevel := v.extractLsb' 0 8, release := v.extractLsb' 16 16 }) ∧
    (a.toNat = 0x1000 + 8 * i + 6 → wrote I) ∧
    (a.toNat = 0x1000 + 8 * i + 7 → wrote I)

/-- R273: `WRREG 0x2000 + 16 s + k` writes the fields of word `k` of source `s`, the restricted ones clamped, and
nothing else; the source's state is not touched. -/
def Obligations.WrregWritesSource : Prop :=
  ∀ (s : State) (a : Half16) (v : Word) (k : Nat) (S : Source), s.ni ≤ 256 → s.ns ≤ 256 →
    s.sources[k]? = some S →
    let wrote (T : Source) : Prop := exec (.wrreg a v) s = .next { s with sources := s.sources.set k T }
    let lo := v.extractLsb' 0 16
    let hi := v.extractLsb' 16 16
    (a.toNat = 0x2000 + 16 * k → wrote { S with en := v.getLsbD 0, lutMode := v.getLsbD 1, fbSel := v.getLsbD 2 }) ∧
    (a.toNat = 0x2000 + 16 * k + 1 → wrote { S with vA := v.extractLsb' 0 8, vB := v.extractLsb' 8 8 }) ∧
    (a.toNat = 0x2000 + 16 * k + 2 → wrote { S with cx := lo, cy := hi }) ∧
    (a.toNat = 0x2000 + 16 * k + 3 → wrote { S with hx := if lo = 0 then 1 else lo, hy := if hi = 0 then 1 else hi }) ∧
    (a.toNat = 0x2000 + 16 * k + 4 → wrote { S with swFront := lo, swBack := hi }) ∧
    (a.toNat = 0x2000 + 16 * k + 5 → wrote { S with maxVol := BitVec.ofNat 7 (clampg (v.extractLsb' 0 8)) }) ∧
    (a.toNat = 0x2000 + 16 * k + 6 → wrote { S with fBase := v }) ∧
    (a.toNat = 0x2000 + 16 * k + 7 → wrote { S with fLen := v }) ∧
    (a.toNat = 0x2000 + 16 * k + 8 → wrote { S with fLoop := v }) ∧
    (a.toNat = 0x2000 + 16 * k + 9 → wrote { S with fInc := v }) ∧
    (a.toNat = 0x2000 + 16 * k + 10 → wrote { S with bBase := v }) ∧
    (a.toNat = 0x2000 + 16 * k + 11 → wrote { S with bLen := v }) ∧
    (a.toNat = 0x2000 + 16 * k + 12 → wrote { S with bLoop := v }) ∧
    (a.toNat = 0x2000 + 16 * k + 13 → wrote { S with bInc := v }) ∧
    (a.toNat = 0x2000 + 16 * k + 14 → ∀ n : Byte, n.toNat = min (max (v.extractLsb' 0 8).toNat 1) 128 →
      wrote { S with nb := n, lutBase := v.extractLsb' 8 16 }) ∧
    (a.toNat = 0x2000 + 16 * k + 15 → wrote S)

/-- R274: `WRREG 0x4000 + 2 e + k` writes one address of table entry `e`, and nothing else. -/
def Obligations.WrregWritesTable : Prop :=
  ∀ (s : State) (a : Half16) (v : Word) (e : Nat) (E : LutEntry), s.ni ≤ 256 → s.ns ≤ 256 →
    s.lut[e]? = some E →
    (a.toNat = 0x4000 + 2 * e → exec (.wrreg a v) s = .next { s with lut := s.lut.set e { E with baseL := v } }) ∧
    (a.toNat = 0x4000 + 2 * e + 1 → exec (.wrreg a v) s = .next { s with lut := s.lut.set e { E with baseR := v } })

/-- R275: a `WRREG` to an address that holds no register is a no-op. -/
def Obligations.WrregUnmappedIsNoOp : Prop :=
  ∀ (s : State) (a : Half16) (v : Word), a ≠ 0 →
    ¬ (0x1000 ≤ a.toNat ∧ a.toNat < 0x1000 + 8 * s.ni) →
    ¬ (0x2000 ≤ a.toNat ∧ a.toNat < 0x2000 + 16 * s.ns) →
    ¬ (0x4000 ≤ a.toNat ∧ a.toNat < 0x4000 + 2 * s.nl) →
    exec (.wrreg a v) s = .next s

/-! ### Reset and the invariant (70_reset_and_hazards.md, 10_state.md) -/

/-- R321: every piece of state of an instance right after reset. -/
def Obligations.ResetValues : Prop :=
  (∀ p : Config.Params, let s := State.resetOf p
    s.nv = p.nv ∧ s.ni = p.ni ∧ s.ns = p.ns ∧ s.nl = p.nl ∧ s.consts = p.consts ∧
    (∀ V ∈ s.voices, V = ⟨false, 0, 0, 0, 0, 0, 0, 0, 0, false, false, .attack, 0, 0, 0, 0, 0⟩) ∧
    s.ctrl = ⟨false, true⟩ ∧ s.ctrl.hrtf = false ∧ s.live = false ∧
    (∀ a, Memory.read s.buffer a = 0x00) ∧
    (∀ I ∈ s.instruments, I = ⟨0, 0, 0, 0, 0, 0, 0, 0⟩) ∧
    (∀ S ∈ s.sources, S = ⟨false, false, false, 0, 0, 0, 0, 1, 1, 0, 0, 0, 0, 0, 0, 0, 0, 0, 0, 0, 1, 0, 0, 0,
      .front, 0xFF⟩) ∧
    (∀ E ∈ s.lut, E = ⟨0, 0⟩) ∧ s.openPacket = [] ∧ s.presented = [] ∧
    statusActive s = List.replicate p.nv false ∧ statusSounding s = List.replicate p.nv false ∧
    statusLive s = false) ∧
  State.reset.nv = 8 ∧ State.reset.ni = 16 ∧ State.reset.ns = 2 ∧ State.reset.nl = 64 ∧
  State.reset.consts = ⟨303, 18157, 69433, 61858⟩

/-- Every instance whose parameters meet R9 is sound right after reset. -/
def Obligations.ResetIsSound : Prop :=
  (∀ p : Config.Params, p.wf → Inv (State.resetOf p)) ∧ Inv State.reset

/-- Every step keeps a state sound: gains 0..64, the cursor of an active voice inside its extent, `loopLength` at
most `length`, the level on its side of `sustainLevel`, source fields in their ranges, the output buffer memory
canonical and below `4 x SPF`, at most one packet open. -/
def Obligations.StepKeepsSoundness : Prop :=
  ∀ s t : State, Inv s → step s = .next t → Inv t
end

