-- ==== Sys2Proof/Laws/Arith.lean ====
section
/-! SUPPORT. What the primitives of the spec's notation (00_scope R12) compute. -/

namespace Sys2Proof.Machine

open Sys2Proof

theorem clamp_bounds {v lo hi : Int} (h : lo ≤ hi) : lo ≤ clamp v lo hi ∧ clamp v lo hi ≤ hi := by
  unfold clamp; split
  · omega
  · split <;> omega

theorem clamp_of_mem {v lo hi : Int} (h1 : lo ≤ v) (h2 : v ≤ hi) : clamp v lo hi = v := by
  unfold clamp; rw [if_neg (by omega), if_neg (by omega)]

theorem clampg_le (b : Byte) : clampg b ≤ 64 := by
  have := clamp_bounds (v := b.toInt) (lo := 0) (hi := 64) (by decide)
  unfold clampg; omega

@[simp] theorem gainOf_toNat (b : Byte) : (gainOf b).toNat = clampg b := by
  have := clampg_le b
  simp only [gainOf, BitVec.toNat_ofNat]; omega

theorem incrementOf_pos (inc : Word) : 1 ≤ (incrementOf inc).toNat := by
  unfold incrementOf
  split
  · decide
  · rename_i h
    have : inc.toNat ≠ 0 := fun h0 => h (BitVec.eq_of_toNat_eq (by simpa using h0))
    omega

/-- Floor division by a power of two, as its two bounds. -/
theorem asr_eq_iff (a q : Int) (n : Nat) : asr a n = q ↔ q * 2 ^ n ≤ a ∧ a < (q + 1) * 2 ^ n := by
  have hp : (0 : Int) < 2 ^ n := Int.pow_pos (by decide)
  unfold asr
  constructor
  · rintro rfl
    exact ⟨Int.ediv_mul_le a (Int.ne_of_gt hp), Int.lt_ediv_add_one_mul_self a hp⟩
  · rintro ⟨h1, h2⟩
    exact le_antisymm (Int.lt_add_one_iff.mp (Int.ediv_lt_of_lt_mul hp h2)) ((Int.le_ediv_iff_mul_le hp).mpr h1)

theorem asr_mono {a b : Int} (n : Nat) (h : a ≤ b) : asr a n ≤ asr b n :=
  Int.ediv_le_ediv (Int.pow_pos (by decide)) h

theorem ceilLog2From_spec (n : Nat) : ∀ fuel k, n ≤ 2 ^ (k + fuel) → (∀ j < k, ¬ n ≤ 2 ^ j) →
    n ≤ 2 ^ ceilLog2From n fuel k ∧ ∀ j, n ≤ 2 ^ j → ceilLog2From n fuel k ≤ j := by
  intro fuel
  induction fuel with
  | zero =>
    intro k h hk
    exact ⟨h, fun j hj => Nat.le_of_not_lt fun hlt => hk j hlt hj⟩
  | succ f ih =>
    intro k h hk
    rw [ceilLog2From]
    split
    · exact ⟨‹_›, fun j hj => Nat.le_of_not_lt fun hlt => hk j hlt hj⟩
    · rename_i hn
      refine ih (k + 1) (by rwa [Nat.add_assoc, Nat.add_comm 1 f]) fun j hj => ?_
      rcases Nat.lt_succ_iff_lt_or_eq.mp hj with hj | rfl
      · exact hk j hj
      · exact hn

/-- `ceilLog2 n` is the least `k` with `n ≤ 2^k` (R12). -/
theorem ceilLog2_spec (n : Nat) : n ≤ 2 ^ ceilLog2 n ∧ ∀ j, n ≤ 2 ^ j → ceilLog2 n ≤ j :=
  ceilLog2From_spec n n 0 (by simpa using Nat.le_of_lt Nat.lt_two_pow_self) fun _ h => absurd h (Nat.not_lt_zero _)

/-- `tdiv` by 64 keeps a bound that is a multiple of 64, on both sides. -/
theorem tdiv64_bounds {a lo hi : Int} (_ : lo ≤ 0) (_ : 0 ≤ hi) (h1 : lo * 64 ≤ a) (h2 : a ≤ hi * 64) :
    lo ≤ tdiv a 64 ∧ tdiv a 64 ≤ hi := by
  unfold tdiv; split <;> omega

/-- `tdiv` is the quotient truncated toward zero (R12). -/
theorem tdiv_eq (a b : Int) : tdiv a b = Int.tdiv a b := by
  unfold tdiv
  split
  · exact (Int.tdiv_eq_ediv_of_nonneg ‹_›).symm
  · rw [← Int.tdiv_eq_ediv_of_nonneg (by omega), Int.neg_tdiv, Int.neg_neg]

@[simp] theorem tdiv_zero (b : Int) : tdiv 0 b = 0 := by simp [tdiv]

theorem tdiv_mul_self (a : Int) : tdiv (a * 64) 64 = a := by unfold tdiv; split <;> omega

theorem tdiv_neg (a : Int) : tdiv (-a) 64 = -tdiv a 64 := by unfold tdiv; split <;> split <;> omega

end Sys2Proof.Machine
end

