-- ==== Sys2Proof/Laws/Decode.lean ====
section
/-! SUPPORT. The fields of the words the encoder writes, and the byte transport of a word (R69). -/

namespace Sys2Proof

theorem extract_append_low {n m : Nat} (x : BitVec n) (y : BitVec m) {k l : Nat} (h : k + l ≤ m) :
    (x ++ y).extractLsb' k l = y.extractLsb' k l := by
  ext i hi
  simp only [BitVec.getElem_extractLsb', BitVec.getLsbD_append]
  rw [if_pos (by omega)]

theorem extract_append_above {n m : Nat} (x : BitVec n) (y : BitVec m) (k l : Nat) :
    (x ++ y).extractLsb' (m + k) l = x.extractLsb' k l := by
  ext i hi
  simp only [BitVec.getElem_extractLsb', BitVec.getLsbD_append]
  rw [if_neg (by omega), Nat.add_assoc, Nat.add_sub_cancel_left]

@[simp] theorem opcOf_header (o v : Byte) (imm : Half16) : opcOf (header o v imm) = o :=
  (extract_append_above (o ++ v) imm 8 8).trans ((extract_append_above o v 0 8).trans BitVec.extractLsb'_eq_self)

@[simp] theorem slotOf_header (o v : Byte) (imm : Half16) : slotOf (header o v imm) = v :=
  (extract_append_above (o ++ v) imm 0 8).trans
    ((extract_append_low o v (by decide)).trans BitVec.extractLsb'_eq_self)

@[simp] theorem immOf_header (o v : Byte) (imm : Half16) : immOf (header o v imm) = imm :=
  (extract_append_low (o ++ v) imm (by decide)).trans BitVec.extractLsb'_eq_self

theorem presentOf_eq (h : Word) : presentOf h = (immOf h).getLsbD 0 := by
  simp [presentOf, immOf]

@[simp] theorem presentOf_header (o v : Byte) (imm : Half16) : presentOf (header o v imm) = imm.getLsbD 0 := by
  rw [presentOf_eq, immOf_header]

@[simp] theorem byte0_packBytes (a b c : Byte) : byte0 (packBytes a b c) = a :=
  (extract_append_low (0#8 ++ c ++ b) a (by decide)).trans BitVec.extractLsb'_eq_self

@[simp] theorem byte1_packBytes (a b c : Byte) : byte1 (packBytes a b c) = b :=
  (extract_append_above (0#8 ++ c ++ b) a 0 8).trans
    ((extract_append_low (0#8 ++ c) b (by decide)).trans BitVec.extractLsb'_eq_self)

@[simp] theorem byte2_packBytes (a b c : Byte) : byte2 (packBytes a b c) = c :=
  (extract_append_above (0#8 ++ c ++ b) a 8 8).trans
    ((extract_append_above (0#8 ++ c) b 0 8).trans
      ((extract_append_low 0#8 c (by decide)).trans BitVec.extractLsb'_eq_self))

@[simp] theorem half0_packHalves (a b : Half16) : half0 (packHalves a b) = a :=
  (extract_append_low b a (by decide)).trans BitVec.extractLsb'_eq_self

@[simp] theorem half1_packHalves (a b : Half16) : half1 (packHalves a b) = b :=
  (extract_append_above b a 0 16).trans BitVec.extractLsb'_eq_self

theorem toNat_append_eq {n m : Nat} (x : BitVec n) (y : BitVec m) :
    (x ++ y).toNat = x.toNat * 2 ^ m + y.toNat := by
  rw [BitVec.toNat_append, ← Nat.shiftLeft_add_eq_or_of_lt y.isLt, Nat.shiftLeft_eq]

/-- The bytes of a word carry the word (R69). -/
theorem wordOfBytes_bytes (w : Word) :
    wordOfBytes (w.extractLsb' 0 8) (w.extractLsb' 8 8) (w.extractLsb' 16 8) (w.extractLsb' 24 8) = w := by
  apply BitVec.eq_of_toNat_eq
  have h := w.isLt
  refine (toNat_append_eq ((w.extractLsb' 24 8 ++ w.extractLsb' 16 8) ++ w.extractLsb' 8 8) _).trans ?_
  simp only [toNat_append_eq, BitVec.extractLsb'_toNat, Nat.shiftRight_eq_div_pow]
  omega

theorem wordsOfBytes_bytesOfWord (w : Word) (rest : List Byte) :
    wordsOfBytes (bytesOfWord w ++ rest) = w :: wordsOfBytes rest :=
  congrArg (· :: wordsOfBytes rest) (wordOfBytes_bytes w)

/-- The bytes of words carry the words. -/
theorem wordsOfBytes_flatMap (ws : List Word) : wordsOfBytes (ws.flatMap bytesOfWord) = ws := by
  induction ws with
  | nil => rfl
  | cons w ws ih => rw [List.flatMap_cons, wordsOfBytes_bytesOfWord, ih]

/-! ### The decoder by the opcode of the header (R93, R95, R98) -/

/-- The decoder on a list that has a header. -/
theorem decode_cons (hd : Word) (ops : List Word) : decode (hd :: ops) = (
    match (opcOf hd).toNat with
    | 1 =>
      match ops with
      | w1 :: w2 :: w3 :: w4 :: w5 :: w6 :: rest =>
        .instr (.trig (slotOf hd) (presentOf hd) w1 w2 w3 w4 w5 (byte0 w6) (byte1 w6) (byte2 w6)) rest
      | _ => .incomplete
    | 2 => .instr (.stop (slotOf hd)) ops
    | 3 =>
      match ops with
      | w1 :: rest => .instr (.setgain (slotOf hd) (byte0 w1) (byte1 w1) (byte2 w1)) rest
      | _ => .incomplete
    | 4 =>
      match ops with
      | w1 :: rest => .instr (.setrate (slotOf hd) w1) rest
      | _ => .incomplete
    | 5 =>
      match ops with
      | w1 :: rest => .instr (.noteon (slotOf hd) (byte0 w1) (byte1 w1) (byte2 w1)) rest
      | _ => .incomplete
    | 6 => .instr (.noteoff (slotOf hd)) ops
    | 7 =>
      match ops with
      | w1 :: rest => .instr (.updpos (slotOf hd) (half0 w1) (half1 w1)) rest
      | _ => .incomplete
    | 8 => .instr .mixframe ops
    | 9 =>
      match ops with
      | w1 :: rest => .instr (.wrreg (immOf hd) w1) rest
      | _ => .incomplete
    | _ => .reserved (opcOf hd) ops) := rfl

/-- The opcode byte of a command calls for its operand words (R93). -/
theorem operandCount_opcode (i : Instr) : operandCount i.opcode = some i.operandWords := by cases i <;> rfl

/-- What the decoder can answer on a header and the words after it: a reserved opcode; not enough operand words;
or a command that leaves the words after its operands. -/
theorem decode_class (hd : Word) (ops : List Word) :
    (operandCount (opcOf hd) = none ∧ decode (hd :: ops) = .reserved (opcOf hd) ops) ∨
    (∃ k, operandCount (opcOf hd) = some k ∧ ops.length < k ∧ decode (hd :: ops) = .incomplete) ∨
    (∃ k i, operandCount (opcOf hd) = some k ∧ k ≤ ops.length ∧ decode (hd :: ops) = .instr i (ops.drop k)) := by
  rw [decode_cons]; unfold operandCount
  split <;> rename_i hop <;> (try simp only [hop])
  · right
    simp only [Option.some.injEq, exists_eq_left']
    rcases ops with _ | ⟨a, _ | ⟨b, _ | ⟨c, _ | ⟨d, _ | ⟨e, _ | ⟨f, ops⟩⟩⟩⟩⟩⟩ <;> simp
  · right; simp
  · right; cases ops <;> simp
  · right; cases ops <;> simp
  · right; cases ops <;> simp
  · right; simp
  · right; cases ops <;> simp
  · right; simp
  · right; cases ops <;> simp
  · left; simp

end Sys2Proof
end

