-- ==== Sys2Proof/Laws/State.lean ====
section
/-! SUPPORT. One lemma for each field of State and each update of Machine/Ops.lean, so that no later proof unfolds
a record update. -/

namespace Sys2Proof.Machine

open Sys2Proof

/-! ### `setVoices` -/

@[simp] theorem State.setVoices_consts (s : State) (vs : List Voice) : (s.setVoices vs).consts = s.consts := rfl
@[simp] theorem State.setVoices_samples (s : State) (vs : List Voice) : (s.setVoices vs).samples = s.samples := rfl
@[simp] theorem State.setVoices_voices (s : State) (vs : List Voice) : (s.setVoices vs).voices = vs := rfl
@[simp] theorem State.setVoices_ctrl (s : State) (vs : List Voice) : (s.setVoices vs).ctrl = s.ctrl := rfl
@[simp] theorem State.setVoices_live (s : State) (vs : List Voice) : (s.setVoices vs).live = s.live := rfl
@[simp] theorem State.setVoices_buffer (s : State) (vs : List Voice) : (s.setVoices vs).buffer = s.buffer := rfl
@[simp] theorem State.setVoices_instruments (s : State) (vs : List Voice) : (s.setVoices vs).instruments = s.instruments := rfl
@[simp] theorem State.setVoices_sources (s : State) (vs : List Voice) : (s.setVoices vs).sources = s.sources := rfl
@[simp] theorem State.setVoices_lut (s : State) (vs : List Voice) : (s.setVoices vs).lut = s.lut := rfl
@[simp] theorem State.setVoices_openPacket (s : State) (vs : List Voice) : (s.setVoices vs).openPacket = s.openPacket := rfl
@[simp] theorem State.setVoices_inputs (s : State) (vs : List Voice) : (s.setVoices vs).inputs = s.inputs := rfl
@[simp] theorem State.setVoices_presented (s : State) (vs : List Voice) : (s.setVoices vs).presented = s.presented := rfl
@[simp] theorem State.setVoices_nv (s : State) (vs : List Voice) : (s.setVoices vs).nv = vs.length := rfl
@[simp] theorem State.setVoices_ni (s : State) (vs : List Voice) : (s.setVoices vs).ni = s.ni := rfl
@[simp] theorem State.setVoices_ns (s : State) (vs : List Voice) : (s.setVoices vs).ns = s.ns := rfl
@[simp] theorem State.setVoices_nl (s : State) (vs : List Voice) : (s.setVoices vs).nl = s.nl := rfl

/-! ### `setCtrl` -/

@[simp] theorem State.setCtrl_consts (s : State) (c : Ctrl) : (s.setCtrl c).consts = s.consts := rfl
@[simp] theorem State.setCtrl_samples (s : State) (c : Ctrl) : (s.setCtrl c).samples = s.samples := rfl
@[simp] theorem State.setCtrl_voices (s : State) (c : Ctrl) : (s.setCtrl c).voices = s.voices := rfl
@[simp] theorem State.setCtrl_ctrl (s : State) (c : Ctrl) : (s.setCtrl c).ctrl = c := rfl
@[simp] theorem State.setCtrl_live (s : State) (c : Ctrl) : (s.setCtrl c).live = s.live := rfl
@[simp] theorem State.setCtrl_buffer (s : State) (c : Ctrl) : (s.setCtrl c).buffer = s.buffer := rfl
@[simp] theorem State.setCtrl_instruments (s : State) (c : Ctrl) : (s.setCtrl c).instruments = s.instruments := rfl
@[simp] theorem State.setCtrl_sources (s : State) (c : Ctrl) : (s.setCtrl c).sources = s.sources := rfl
@[simp] theorem State.setCtrl_lut (s : State) (c : Ctrl) : (s.setCtrl c).lut = s.lut := rfl
@[simp] theorem State.setCtrl_openPacket (s : State) (c : Ctrl) : (s.setCtrl c).openPacket = s.openPacket := rfl
@[simp] theorem State.setCtrl_inputs (s : State) (c : Ctrl) : (s.setCtrl c).inputs = s.inputs := rfl
@[simp] theorem State.setCtrl_presented (s : State) (c : Ctrl) : (s.setCtrl c).presented = s.presented := rfl
@[simp] theorem State.setCtrl_nv (s : State) (c : Ctrl) : (s.setCtrl c).nv = s.nv := rfl
@[simp] theorem State.setCtrl_ni (s : State) (c : Ctrl) : (s.setCtrl c).ni = s.ni := rfl
@[simp] theorem State.setCtrl_ns (s : State) (c : Ctrl) : (s.setCtrl c).ns = s.ns := rfl
@[simp] theorem State.setCtrl_nl (s : State) (c : Ctrl) : (s.setCtrl c).nl = s.nl := rfl

/-! ### `setLive` -/

@[simp] theorem State.setLive_consts (s : State) (b : Bool) : (s.setLive b).consts = s.consts := rfl
@[simp] theorem State.setLive_samples (s : State) (b : Bool) : (s.setLive b).samples = s.samples := rfl
@[simp] theorem State.setLive_voices (s : State) (b : Bool) : (s.setLive b).voices = s.voices := rfl
@[simp] theorem State.setLive_ctrl (s : State) (b : Bool) : (s.setLive b).ctrl = s.ctrl := rfl
@[simp] theorem State.setLive_live (s : State) (b : Bool) : (s.setLive b).live = b := rfl
@[simp] theorem State.setLive_buffer (s : State) (b : Bool) : (s.setLive b).buffer = s.buffer := rfl
@[simp] theorem State.setLive_instruments (s : State) (b : Bool) : (s.setLive b).instruments = s.instruments := rfl
@[simp] theorem State.setLive_sources (s : State) (b : Bool) : (s.setLive b).sources = s.sources := rfl
@[simp] theorem State.setLive_lut (s : State) (b : Bool) : (s.setLive b).lut = s.lut := rfl
@[simp] theorem State.setLive_openPacket (s : State) (b : Bool) : (s.setLive b).openPacket = s.openPacket := rfl
@[simp] theorem State.setLive_inputs (s : State) (b : Bool) : (s.setLive b).inputs = s.inputs := rfl
@[simp] theorem State.setLive_presented (s : State) (b : Bool) : (s.setLive b).presented = s.presented := rfl
@[simp] theorem State.setLive_nv (s : State) (b : Bool) : (s.setLive b).nv = s.nv := rfl
@[simp] theorem State.setLive_ni (s : State) (b : Bool) : (s.setLive b).ni = s.ni := rfl
@[simp] theorem State.setLive_ns (s : State) (b : Bool) : (s.setLive b).ns = s.ns := rfl
@[simp] theorem State.setLive_nl (s : State) (b : Bool) : (s.setLive b).nl = s.nl := rfl

/-! ### `setBuffer` -/

@[simp] theorem State.setBuffer_consts (s : State) (m : Memory) : (s.setBuffer m).consts = s.consts := rfl
@[simp] theorem State.setBuffer_samples (s : State) (m : Memory) : (s.setBuffer m).samples = s.samples := rfl
@[simp] theorem State.setBuffer_voices (s : State) (m : Memory) : (s.setBuffer m).voices = s.voices := rfl
@[simp] theorem State.setBuffer_ctrl (s : State) (m : Memory) : (s.setBuffer m).ctrl = s.ctrl := rfl
@[simp] theorem State.setBuffer_live (s : State) (m : Memory) : (s.setBuffer m).live = s.live := rfl
@[simp] theorem State.setBuffer_buffer (s : State) (m : Memory) : (s.setBuffer m).buffer = m := rfl
@[simp] theorem State.setBuffer_instruments (s : State) (m : Memory) : (s.setBuffer m).instruments = s.instruments := rfl
@[simp] theorem State.setBuffer_sources (s : State) (m : Memory) : (s.setBuffer m).sources = s.sources := rfl
@[simp] theorem State.setBuffer_lut (s : State) (m : Memory) : (s.setBuffer m).lut = s.lut := rfl
@[simp] theorem State.setBuffer_openPacket (s : State) (m : Memory) : (s.setBuffer m).openPacket = s.openPacket := rfl
@[simp] theorem State.setBuffer_inputs (s : State) (m : Memory) : (s.setBuffer m).inputs = s.inputs := rfl
@[simp] theorem State.setBuffer_presented (s : State) (m : Memory) : (s.setBuffer m).presented = s.presented := rfl
@[simp] theorem State.setBuffer_nv (s : State) (m : Memory) : (s.setBuffer m).nv = s.nv := rfl
@[simp] theorem State.setBuffer_ni (s : State) (m : Memory) : (s.setBuffer m).ni = s.ni := rfl
@[simp] theorem State.setBuffer_ns (s : State) (m : Memory) : (s.setBuffer m).ns = s.ns := rfl
@[simp] theorem State.setBuffer_nl (s : State) (m : Memory) : (s.setBuffer m).nl = s.nl := rfl

/-! ### `setInstruments` -/

@[simp] theorem State.setInstruments_consts (s : State) (is : List Instrument) : (s.setInstruments is).consts = s.consts := rfl
@[simp] theorem State.setInstruments_samples (s : State) (is : List Instrument) : (s.setInstruments is).samples = s.samples := rfl
@[simp] theorem State.setInstruments_voices (s : State) (is : List Instrument) : (s.setInstruments is).voices = s.voices := rfl
@[simp] theorem State.setInstruments_ctrl (s : State) (is : List Instrument) : (s.setInstruments is).ctrl = s.ctrl := rfl
@[simp] theorem State.setInstruments_live (s : State) (is : List Instrument) : (s.setInstruments is).live = s.live := rfl
@[simp] theorem State.setInstruments_buffer (s : State) (is : List Instrument) : (s.setInstruments is).buffer = s.buffer := rfl
@[simp] theorem State.setInstruments_instruments (s : State) (is : List Instrument) : (s.setInstruments is).instruments = is := rfl
@[simp] theorem State.setInstruments_sources (s : State) (is : List Instrument) : (s.setInstruments is).sources = s.sources := rfl
@[simp] theorem State.setInstruments_lut (s : State) (is : List Instrument) : (s.setInstruments is).lut = s.lut := rfl
@[simp] theorem State.setInstruments_openPacket (s : State) (is : List Instrument) : (s.setInstruments is).openPacket = s.openPacket := rfl
@[simp] theorem State.setInstruments_inputs (s : State) (is : List Instrument) : (s.setInstruments is).inputs = s.inputs := rfl
@[simp] theorem State.setInstruments_presented (s : State) (is : List Instrument) : (s.setInstruments is).presented = s.presented := rfl
@[simp] theorem State.setInstruments_nv (s : State) (is : List Instrument) : (s.setInstruments is).nv = s.nv := rfl
@[simp] theorem State.setInstruments_ni (s : State) (is : List Instrument) : (s.setInstruments is).ni = is.length := rfl
@[simp] theorem State.setInstruments_ns (s : State) (is : List Instrument) : (s.setInstruments is).ns = s.ns := rfl
@[simp] theorem State.setInstruments_nl (s : State) (is : List Instrument) : (s.setInstruments is).nl = s.nl := rfl

/-! ### `setSources` -/

@[simp] theorem State.setSources_consts (s : State) (ss : List Source) : (s.setSources ss).consts = s.consts := rfl
@[simp] theorem State.setSources_samples (s : State) (ss : List Source) : (s.setSources ss).samples = s.samples := rfl
@[simp] theorem State.setSources_voices (s : State) (ss : List Source) : (s.setSources ss).voices = s.voices := rfl
@[simp] theorem State.setSources_ctrl (s : State) (ss : List Source) : (s.setSources ss).ctrl = s.ctrl := rfl
@[simp] theorem State.setSources_live (s : State) (ss : List Source) : (s.setSources ss).live = s.live := rfl
@[simp] theorem State.setSources_buffer (s : State) (ss : List Source) : (s.setSources ss).buffer = s.buffer := rfl
@[simp] theorem State.setSources_instruments (s : State) (ss : List Source) : (s.setSources ss).instruments = s.instruments := rfl
@[simp] theorem State.setSources_sources (s : State) (ss : List Source) : (s.setSources ss).sources = ss := rfl
@[simp] theorem State.setSources_lut (s : State) (ss : List Source) : (s.setSources ss).lut = s.lut := rfl
@[simp] theorem State.setSources_openPacket (s : State) (ss : List Source) : (s.setSources ss).openPacket = s.openPacket := rfl
@[simp] theorem State.setSources_inputs (s : State) (ss : List Source) : (s.setSources ss).inputs = s.inputs := rfl
@[simp] theorem State.setSources_presented (s : State) (ss : List Source) : (s.setSources ss).presented = s.presented := rfl
@[simp] theorem State.setSources_nv (s : State) (ss : List Source) : (s.setSources ss).nv = s.nv := rfl
@[simp] theorem State.setSources_ni (s : State) (ss : List Source) : (s.setSources ss).ni = s.ni := rfl
@[simp] theorem State.setSources_ns (s : State) (ss : List Source) : (s.setSources ss).ns = ss.length := rfl
@[simp] theorem State.setSources_nl (s : State) (ss : List Source) : (s.setSources ss).nl = s.nl := rfl

/-! ### `setLut` -/

@[simp] theorem State.setLut_consts (s : State) (es : List LutEntry) : (s.setLut es).consts = s.consts := rfl
@[simp] theorem State.setLut_samples (s : State) (es : List LutEntry) : (s.setLut es).samples = s.samples := rfl
@[simp] theorem State.setLut_voices (s : State) (es : List LutEntry) : (s.setLut es).voices = s.voices := rfl
@[simp] theorem State.setLut_ctrl (s : State) (es : List LutEntry) : (s.setLut es).ctrl = s.ctrl := rfl
@[simp] theorem State.setLut_live (s : State) (es : List LutEntry) : (s.setLut es).live = s.live := rfl
@[simp] theorem State.setLut_buffer (s : State) (es : List LutEntry) : (s.setLut es).buffer = s.buffer := rfl
@[simp] theorem State.setLut_instruments (s : State) (es : List LutEntry) : (s.setLut es).instruments = s.instruments := rfl
@[simp] theorem State.setLut_sources (s : State) (es : List LutEntry) : (s.setLut es).sources = s.sources := rfl
@[simp] theorem State.setLut_lut (s : State) (es : List LutEntry) : (s.setLut es).lut = es := rfl
@[simp] theorem State.setLut_openPacket (s : State) (es : List LutEntry) : (s.setLut es).openPacket = s.openPacket := rfl
@[simp] theorem State.setLut_inputs (s : State) (es : List LutEntry) : (s.setLut es).inputs = s.inputs := rfl
@[simp] theorem State.setLut_presented (s : State) (es : List LutEntry) : (s.setLut es).presented = s.presented := rfl
@[simp] theorem State.setLut_nv (s : State) (es : List LutEntry) : (s.setLut es).nv = s.nv := rfl
@[simp] theorem State.setLut_ni (s : State) (es : List LutEntry) : (s.setLut es).ni = s.ni := rfl
@[simp] theorem State.setLut_ns (s : State) (es : List LutEntry) : (s.setLut es).ns = s.ns := rfl
@[simp] theorem State.setLut_nl (s : State) (es : List LutEntry) : (s.setLut es).nl = es.length := rfl

/-! ### `setOpenPacket` -/

@[simp] theorem State.setOpenPacket_consts (s : State) (ws : List Word) : (s.setOpenPacket ws).consts = s.consts := rfl
@[simp] theorem State.setOpenPacket_samples (s : State) (ws : List Word) : (s.setOpenPacket ws).samples = s.samples := rfl
@[simp] theorem State.setOpenPacket_voices (s : State) (ws : List Word) : (s.setOpenPacket ws).voices = s.voices := rfl
@[simp] theorem State.setOpenPacket_ctrl (s : State) (ws : List Word) : (s.setOpenPacket ws).ctrl = s.ctrl := rfl
@[simp] theorem State.setOpenPacket_live (s : State) (ws : List Word) : (s.setOpenPacket ws).live = s.live := rfl
@[simp] theorem State.setOpenPacket_buffer (s : State) (ws : List Word) : (s.setOpenPacket ws).buffer = s.buffer := rfl
@[simp] theorem State.setOpenPacket_instruments (s : State) (ws : List Word) : (s.setOpenPacket ws).instruments = s.instruments := rfl
@[simp] theorem State.setOpenPacket_sources (s : State) (ws : List Word) : (s.setOpenPacket ws).sources = s.sources := rfl
@[simp] theorem State.setOpenPacket_lut (s : State) (ws : List Word) : (s.setOpenPacket ws).lut = s.lut := rfl
@[simp] theorem State.setOpenPacket_openPacket (s : State) (ws : List Word) : (s.setOpenPacket ws).openPacket = ws := rfl
@[simp] theorem State.setOpenPacket_inputs (s : State) (ws : List Word) : (s.setOpenPacket ws).inputs = s.inputs := rfl
@[simp] theorem State.setOpenPacket_presented (s : State) (ws : List Word) : (s.setOpenPacket ws).presented = s.presented := rfl
@[simp] theorem State.setOpenPacket_nv (s : State) (ws : List Word) : (s.setOpenPacket ws).nv = s.nv := rfl
@[simp] theorem State.setOpenPacket_ni (s : State) (ws : List Word) : (s.setOpenPacket ws).ni = s.ni := rfl
@[simp] theorem State.setOpenPacket_ns (s : State) (ws : List Word) : (s.setOpenPacket ws).ns = s.ns := rfl
@[simp] theorem State.setOpenPacket_nl (s : State) (ws : List Word) : (s.setOpenPacket ws).nl = s.nl := rfl

/-! ### `setInputs` -/

@[simp] theorem State.setInputs_consts (s : State) (is : List Input) : (s.setInputs is).consts = s.consts := rfl
@[simp] theorem State.setInputs_samples (s : State) (is : List Input) : (s.setInputs is).samples = s.samples := rfl
@[simp] theorem State.setInputs_voices (s : State) (is : List Input) : (s.setInputs is).voices = s.voices := rfl
@[simp] theorem State.setInputs_ctrl (s : State) (is : List Input) : (s.setInputs is).ctrl = s.ctrl := rfl
@[simp] theorem State.setInputs_live (s : State) (is : List Input) : (s.setInputs is).live = s.live := rfl
@[simp] theorem State.setInputs_buffer (s : State) (is : List Input) : (s.setInputs is).buffer = s.buffer := rfl
@[simp] theorem State.setInputs_instruments (s : State) (is : List Input) : (s.setInputs is).instruments = s.instruments := rfl
@[simp] theorem State.setInputs_sources (s : State) (is : List Input) : (s.setInputs is).sources = s.sources := rfl
@[simp] theorem State.setInputs_lut (s : State) (is : List Input) : (s.setInputs is).lut = s.lut := rfl
@[simp] theorem State.setInputs_openPacket (s : State) (is : List Input) : (s.setInputs is).openPacket = s.openPacket := rfl
@[simp] theorem State.setInputs_inputs (s : State) (is : List Input) : (s.setInputs is).inputs = is := rfl
@[simp] theorem State.setInputs_presented (s : State) (is : List Input) : (s.setInputs is).presented = s.presented := rfl
@[simp] theorem State.setInputs_nv (s : State) (is : List Input) : (s.setInputs is).nv = s.nv := rfl
@[simp] theorem State.setInputs_ni (s : State) (is : List Input) : (s.setInputs is).ni = s.ni := rfl
@[simp] theorem State.setInputs_ns (s : State) (is : List Input) : (s.setInputs is).ns = s.ns := rfl
@[simp] theorem State.setInputs_nl (s : State) (is : List Input) : (s.setInputs is).nl = s.nl := rfl

/-! ### `emit` -/

@[simp] theorem State.emit_consts (s : State) (p : Present) : (s.emit p).consts = s.consts := rfl
@[simp] theorem State.emit_samples (s : State) (p : Present) : (s.emit p).samples = s.samples := rfl
@[simp] theorem State.emit_voices (s : State) (p : Present) : (s.emit p).voices = s.voices := rfl
@[simp] theorem State.emit_ctrl (s : State) (p : Present) : (s.emit p).ctrl = s.ctrl := rfl
@[simp] theorem State.emit_live (s : State) (p : Present) : (s.emit p).live = s.live := rfl
@[simp] theorem State.emit_buffer (s : State) (p : Present) : (s.emit p).buffer = s.buffer := rfl
@[simp] theorem State.emit_instruments (s : State) (p : Present) : (s.emit p).instruments = s.instruments := rfl
@[simp] theorem State.emit_sources (s : State) (p : Present) : (s.emit p).sources = s.sources := rfl
@[simp] theorem State.emit_lut (s : State) (p : Present) : (s.emit p).lut = s.lut := rfl
@[simp] theorem State.emit_openPacket (s : State) (p : Present) : (s.emit p).openPacket = s.openPacket := rfl
@[simp] theorem State.emit_inputs (s : State) (p : Present) : (s.emit p).inputs = s.inputs := rfl
@[simp] theorem State.emit_presented (s : State) (p : Present) : (s.emit p).presented = s.presented ++ [p] := rfl
@[simp] theorem State.emit_nv (s : State) (p : Present) : (s.emit p).nv = s.nv := rfl
@[simp] theorem State.emit_ni (s : State) (p : Present) : (s.emit p).ni = s.ni := rfl
@[simp] theorem State.emit_ns (s : State) (p : Present) : (s.emit p).ns = s.ns := rfl
@[simp] theorem State.emit_nl (s : State) (p : Present) : (s.emit p).nl = s.nl := rfl

/-! ### `modifyVoice` -/

@[simp] theorem State.modifyVoice_consts (s : State) (v : Nat) (f : Voice → Voice) : (s.modifyVoice v f).consts = s.consts := rfl
@[simp] theorem State.modifyVoice_samples (s : State) (v : Nat) (f : Voice → Voice) : (s.modifyVoice v f).samples = s.samples := rfl
@[simp] theorem State.modifyVoice_voices (s : State) (v : Nat) (f : Voice → Voice) : (s.modifyVoice v f).voices = s.voices.modify v f := rfl
@[simp] theorem State.modifyVoice_ctrl (s : State) (v : Nat) (f : Voice → Voice) : (s.modifyVoice v f).ctrl = s.ctrl := rfl
@[simp] theorem State.modifyVoice_live (s : State) (v : Nat) (f : Voice → Voice) : (s.modifyVoice v f).live = s.live := rfl
@[simp] theorem State.modifyVoice_buffer (s : State) (v : Nat) (f : Voice → Voice) : (s.modifyVoice v f).buffer = s.buffer := rfl
@[simp] theorem State.modifyVoice_instruments (s : State) (v : Nat) (f : Voice → Voice) : (s.modifyVoice v f).instruments = s.instruments := rfl
@[simp] theorem State.modifyVoice_sources (s : State) (v : Nat) (f : Voice → Voice) : (s.modifyVoice v f).sources = s.sources := rfl
@[simp] theorem State.modifyVoice_lut (s : State) (v : Nat) (f : Voice → Voice) : (s.modifyVoice v f).lut = s.lut := rfl
@[simp] theorem State.modifyVoice_openPacket (s : State) (v : Nat) (f : Voice → Voice) : (s.modifyVoice v f).openPacket = s.openPacket := rfl
@[simp] theorem State.modifyVoice_inputs (s : State) (v : Nat) (f : Voice → Voice) : (s.modifyVoice v f).inputs = s.inputs := rfl
@[simp] theorem State.modifyVoice_presented (s : State) (v : Nat) (f : Voice → Voice) : (s.modifyVoice v f).presented = s.presented := rfl
@[simp] theorem State.modifyVoice_nv (s : State) (v : Nat) (f : Voice → Voice) : (s.modifyVoice v f).nv = s.nv := List.length_modify ..
@[simp] theorem State.modifyVoice_ni (s : State) (v : Nat) (f : Voice → Voice) : (s.modifyVoice v f).ni = s.ni := rfl
@[simp] theorem State.modifyVoice_ns (s : State) (v : Nat) (f : Voice → Voice) : (s.modifyVoice v f).ns = s.ns := rfl
@[simp] theorem State.modifyVoice_nl (s : State) (v : Nat) (f : Voice → Voice) : (s.modifyVoice v f).nl = s.nl := rfl

/-! ### `modifyInstrument` -/

@[simp] theorem State.modifyInstrument_consts (s : State) (i : Nat) (f : Instrument → Instrument) : (s.modifyInstrument i f).consts = s.consts := rfl
@[simp] theorem State.modifyInstrument_samples (s : State) (i : Nat) (f : Instrument → Instrument) : (s.modifyInstrument i f).samples = s.samples := rfl
@[simp] theorem State.modifyInstrument_voices (s : State) (i : Nat) (f : Instrument → Instrument) : (s.modifyInstrument i f).voices = s.voices := rfl
@[simp] theorem State.modifyInstrument_ctrl (s : State) (i : Nat) (f : Instrument → Instrument) : (s.modifyInstrument i f).ctrl = s.ctrl := rfl
@[simp] theorem State.modifyInstrument_live (s : State) (i : Nat) (f : Instrument → Instrument) : (s.modifyInstrument i f).live = s.live := rfl
@[simp] theorem State.modifyInstrument_buffer (s : State) (i : Nat) (f : Instrument → Instrument) : (s.modifyInstrument i f).buffer = s.buffer := rfl
@[simp] theorem State.modifyInstrument_instruments (s : State) (i : Nat) (f : Instrument → Instrument) : (s.modifyInstrument i f).instruments = s.instruments.modify i f := rfl
@[simp] theorem State.modifyInstrument_sources (s : State) (i : Nat) (f : Instrument → Instrument) : (s.modifyInstrument i f).sources = s.sources := rfl
@[simp] theorem State.modifyInstrument_lut (s : State) (i : Nat) (f : Instrument → Instrument) : (s.modifyInstrument i f).lut = s.lut := rfl
@[simp] theorem State.modifyInstrument_openPacket (s : State) (i : Nat) (f : Instrument → Instrument) : (s.modifyInstrument i f).openPacket = s.openPacket := rfl
@[simp] theorem State.modifyInstrument_inputs (s : State) (i : Nat) (f : Instrument → Instrument) : (s.modifyInstrument i f).inputs = s.inputs := rfl
@[simp] theorem State.modifyInstrument_presented (s : State) (i : Nat) (f : Instrument → Instrument) : (s.modifyInstrument i f).presented = s.presented := rfl
@[simp] theorem State.modifyInstrument_nv (s : State) (i : Nat) (f : Instrument → Instrument) : (s.modifyInstrument i f).nv = s.nv := rfl
@[simp] theorem State.modifyInstrument_ni (s : State) (i : Nat) (f : Instrument → Instrument) : (s.modifyInstrument i f).ni = s.ni := List.length_modify ..
@[simp] theorem State.modifyInstrument_ns (s : State) (i : Nat) (f : Instrument → Instrument) : (s.modifyInstrument i f).ns = s.ns := rfl
@[simp] theorem State.modifyInstrument_nl (s : State) (i : Nat) (f : Instrument → Instrument) : (s.modifyInstrument i f).nl = s.nl := rfl

/-! ### `modifySource` -/

@[simp] theorem State.modifySource_consts (s : State) (k : Nat) (f : Source → Source) : (s.modifySource k f).consts = s.consts := rfl
@[simp] theorem State.modifySource_samples (s : State) (k : Nat) (f : Source → Source) : (s.modifySource k f).samples = s.samples := rfl
@[simp] theorem State.modifySource_voices (s : State) (k : Nat) (f : Source → Source) : (s.modifySource k f).voices = s.voices := rfl
@[simp] theorem State.modifySource_ctrl (s : State) (k : Nat) (f : Source → Source) : (s.modifySource k f).ctrl = s.ctrl := rfl
@[simp] theorem State.modifySource_live (s : State) (k : Nat) (f : Source → Source) : (s.modifySource k f).live = s.live := rfl
@[simp] theorem State.modifySource_buffer (s : State) (k : Nat) (f : Source → Source) : (s.modifySource k f).buffer = s.buffer := rfl
@[simp] theorem State.modifySource_instruments (s : State) (k : Nat) (f : Source → Source) : (s.modifySource k f).instruments = s.instruments := rfl
@[simp] theorem State.modifySource_sources (s : State) (k : Nat) (f : Source → Source) : (s.modifySource k f).sources = s.sources.modify k f := rfl
@[simp] theorem State.modifySource_lut (s : State) (k : Nat) (f : Source → Source) : (s.modifySource k f).lut = s.lut := rfl
@[simp] theorem State.modifySource_openPacket (s : State) (k : Nat) (f : Source → Source) : (s.modifySource k f).openPacket = s.openPacket := rfl
@[simp] theorem State.modifySource_inputs (s : State) (k : Nat) (f : Source → Source) : (s.modifySource k f).inputs = s.inputs := rfl
@[simp] theorem State.modifySource_presented (s : State) (k : Nat) (f : Source → Source) : (s.modifySource k f).presented = s.presented := rfl
@[simp] theorem State.modifySource_nv (s : State) (k : Nat) (f : Source → Source) : (s.modifySource k f).nv = s.nv := rfl
@[simp] theorem State.modifySource_ni (s : State) (k : Nat) (f : Source → Source) : (s.modifySource k f).ni = s.ni := rfl
@[simp] theorem State.modifySource_ns (s : State) (k : Nat) (f : Source → Source) : (s.modifySource k f).ns = s.ns := List.length_modify ..
@[simp] theorem State.modifySource_nl (s : State) (k : Nat) (f : Source → Source) : (s.modifySource k f).nl = s.nl := rfl

/-! ### `modifyLut` -/

@[simp] theorem State.modifyLut_consts (s : State) (e : Nat) (f : LutEntry → LutEntry) : (s.modifyLut e f).consts = s.consts := rfl
@[simp] theorem State.modifyLut_samples (s : State) (e : Nat) (f : LutEntry → LutEntry) : (s.modifyLut e f).samples = s.samples := rfl
@[simp] theorem State.modifyLut_voices (s : State) (e : Nat) (f : LutEntry → LutEntry) : (s.modifyLut e f).voices = s.voices := rfl
@[simp] theorem State.modifyLut_ctrl (s : State) (e : Nat) (f : LutEntry → LutEntry) : (s.modifyLut e f).ctrl = s.ctrl := rfl
@[simp] theorem State.modifyLut_live (s : State) (e : Nat) (f : LutEntry → LutEntry) : (s.modifyLut e f).live = s.live := rfl
@[simp] theorem State.modifyLut_buffer (s : State) (e : Nat) (f : LutEntry → LutEntry) : (s.modifyLut e f).buffer = s.buffer := rfl
@[simp] theorem State.modifyLut_instruments (s : State) (e : Nat) (f : LutEntry → LutEntry) : (s.modifyLut e f).instruments = s.instruments := rfl
@[simp] theorem State.modifyLut_sources (s : State) (e : Nat) (f : LutEntry → LutEntry) : (s.modifyLut e f).sources = s.sources := rfl
@[simp] theorem State.modifyLut_lut (s : State) (e : Nat) (f : LutEntry → LutEntry) : (s.modifyLut e f).lut = s.lut.modify e f := rfl
@[simp] theorem State.modifyLut_openPacket (s : State) (e : Nat) (f : LutEntry → LutEntry) : (s.modifyLut e f).openPacket = s.openPacket := rfl
@[simp] theorem State.modifyLut_inputs (s : State) (e : Nat) (f : LutEntry → LutEntry) : (s.modifyLut e f).inputs = s.inputs := rfl
@[simp] theorem State.modifyLut_presented (s : State) (e : Nat) (f : LutEntry → LutEntry) : (s.modifyLut e f).presented = s.presented := rfl
@[simp] theorem State.modifyLut_nv (s : State) (e : Nat) (f : LutEntry → LutEntry) : (s.modifyLut e f).nv = s.nv := rfl
@[simp] theorem State.modifyLut_ni (s : State) (e : Nat) (f : LutEntry → LutEntry) : (s.modifyLut e f).ni = s.ni := rfl
@[simp] theorem State.modifyLut_ns (s : State) (e : Nat) (f : LutEntry → LutEntry) : (s.modifyLut e f).ns = s.ns := rfl
@[simp] theorem State.modifyLut_nl (s : State) (e : Nat) (f : LutEntry → LutEntry) : (s.modifyLut e f).nl = s.nl := List.length_modify ..

/-! ### Table sizes of an instance after reset -/

@[simp] theorem State.resetOf_nv (p : Config.Params) : (State.resetOf p).nv = p.nv := List.length_replicate
@[simp] theorem State.resetOf_ni (p : Config.Params) : (State.resetOf p).ni = p.ni := List.length_replicate
@[simp] theorem State.resetOf_ns (p : Config.Params) : (State.resetOf p).ns = p.ns := List.length_replicate
@[simp] theorem State.resetOf_nl (p : Config.Params) : (State.resetOf p).nl = p.nl := List.length_replicate
@[simp] theorem State.resetOf_consts (p : Config.Params) : (State.resetOf p).consts = p.consts := rfl

end Sys2Proof.Machine
end

