-- ==== Sys2Proof/Laws/Memory.lean ====
section
/-! SUPPORT. The laws of the output buffer memory: what a store changes, what it leaves, and that every store keeps
the canonical form. -/

namespace Sys2Proof.Machine

open Sys2Proof

@[simp] theorem Memory.read_nil (a : Nat) : Memory.read [] a = unlistedByte := rfl

theorem Memory.wf_nil : Memory.wf [] := by simp [Memory.wf]

/-- The output buffer memory after reset is in canonical form (R321). -/
theorem reset_buffer_wf : Memory.wf State.reset.buffer := Memory.wf_nil

/-- The reset input leaves the output buffer memory in canonical form (R320). -/
theorem resetInput_buffer_wf (s : State) : Memory.wf (resetInput s).buffer := Memory.wf_nil

theorem Memory.wf_tail {c : Host.Cell} {m : Memory} (h : Memory.wf (c :: m)) : Memory.wf m :=
  ⟨(List.pairwise_cons.mp h.1).2, fun d hd => h.2 d (List.mem_cons_of_mem _ hd)⟩

/-- An address below every listed one reads as unlisted. -/
theorem Memory.read_below {m : Memory} {a : Nat} (h : ∀ c ∈ m, a < c.1) : Memory.read m a = unlistedByte := by
  induction m with
  | nil => rfl
  | cons c m ih =>
    have hc : a ≠ c.1 := Nat.ne_of_lt (h c (List.mem_cons_self ..))
    simp only [Memory.read, if_neg hc]
    exact ih fun d hd => h d (List.mem_cons_of_mem _ hd)

/-- The addresses a store can leave listed: those listed before, and the one stored to. -/
theorem Memory.mem_write {m : Memory} {a : Nat} {b : Byte} {c : Host.Cell} (h : c ∈ Memory.write m a b) :
    c ∈ m ∨ (c = (a, b) ∧ b ≠ unlistedByte) := by
  induction m with
  | nil =>
    simp only [Memory.write] at h
    split at h
    · exact absurd h (List.not_mem_nil)
    · exact .inr ⟨List.mem_singleton.mp h, ‹_›⟩
  | cons d m ih =>
    obtain ⟨a', b'⟩ := d
    simp only [Memory.write] at h
    split at h
    · split at h
      · exact .inl h
      · rcases List.mem_cons.mp h with h | h
        · exact .inr ⟨h, ‹_›⟩
        · exact .inl h
    · split at h
      · split at h
        · exact .inl (List.mem_cons_of_mem _ h)
        · rcases List.mem_cons.mp h with h | h
          · exact .inr ⟨h, ‹_›⟩
          · exact .inl (List.mem_cons_of_mem _ h)
      · rcases List.mem_cons.mp h with h | h
        · exact .inl (h ▸ List.mem_cons_self ..)
        · rcases ih h with h | h
          · exact .inl (List.mem_cons_of_mem _ h)
          · exact .inr h

/-- A store keeps the canonical form. -/
theorem Memory.write_wf {m : Memory} (a : Nat) (b : Byte) (h : Memory.wf m) : Memory.wf (Memory.write m a b) := by
  refine ⟨?_, fun c hc => (Memory.mem_write hc).elim (h.2 c) fun ⟨e, hb⟩ => e ▸ hb⟩
  induction m with
  | nil => simp only [Memory.write]; split <;> simp
  | cons d m ih =>
    obtain ⟨a', b'⟩ := d
    have hp := List.pairwise_cons.mp h.1
    simp only [Memory.write]
    split
    · split
      · exact h.1
      · refine List.pairwise_cons.mpr ⟨fun c hc => ?_, h.1⟩
        rcases List.mem_cons.mp hc with hc | hc
        · subst hc; assumption
        · exact Nat.lt_trans ‹_› (hp.1 c hc)
    · split
      · rename_i he
        split
        · exact hp.2
        · exact List.pairwise_cons.mpr ⟨fun c hc => he ▸ hp.1 c hc, hp.2⟩
      · refine List.pairwise_cons.mpr ⟨fun c hc => ?_, ih (Memory.wf_tail h)⟩
        rcases Memory.mem_write hc with hc | ⟨hc, _⟩
        · exact hp.1 c hc
        · subst hc; simp only; omega

/-- Reading the byte just stored. -/
theorem Memory.read_write_same {m : Memory} (a : Nat) (b : Byte) (h : Memory.wf m) :
    Memory.read (Memory.write m a b) a = b := by
  induction m with
  | nil => simp only [Memory.write]; split <;> simp_all [Memory.read]
  | cons d m ih =>
    obtain ⟨a', b'⟩ := d
    have hp := List.pairwise_cons.mp h.1
    simp only [Memory.write]
    split
    · split
      · rename_i hlt hb
        rw [hb]
        refine Memory.read_below fun c hc => ?_
        rcases List.mem_cons.mp hc with hc | hc
        · subst hc; exact hlt
        · exact Nat.lt_trans hlt (hp.1 c hc)
      · simp [Memory.read]
    · split
      · rename_i he
        split
        · rename_i hb
          rw [hb]
          exact Memory.read_below fun c hc => he ▸ hp.1 c hc
        · simp [Memory.read]
      · rename_i he
        simp only [Memory.read, if_neg he]
        exact ih (Memory.wf_tail h)

/-- A store leaves every other byte. -/
theorem Memory.read_write_other (m : Memory) {a a' : Nat} (b : Byte) (h : a' ≠ a) :
    Memory.read (Memory.write m a b) a' = Memory.read m a' := by
  induction m with
  | nil => simp only [Memory.write]; split <;> simp [Memory.read, h]
  | cons d m ih =>
    obtain ⟨c, b'⟩ := d
    simp only [Memory.write]
    split
    · split
      · rfl
      · simp [Memory.read, h]
    · split
      · rename_i he
        subst he
        split <;> simp [Memory.read, h]
      · simp only [Memory.read, ih]

theorem Memory.writeList_wf (bs : List Byte) : ∀ {m : Memory} (a : Nat), Memory.wf m → Memory.wf (Memory.writeList m a bs) := by
  induction bs with
  | nil => intro m a h; exact h
  | cons b bs ih => intro m a h; exact ih (a + 1) (Memory.write_wf a b h)

/-- The addresses a run of stores can leave listed. -/
theorem Memory.mem_writeList (bs : List Byte) : ∀ {m : Memory} {a : Nat} {c : Host.Cell},
    c ∈ Memory.writeList m a bs → c ∈ m ∨ (a ≤ c.1 ∧ c.1 < a + bs.length) := by
  induction bs with
  | nil => intro m a c h; exact .inl h
  | cons b bs ih =>
    intro m a c h
    rcases ih h with h | h
    · rcases Memory.mem_write h with h | ⟨h, _⟩
      · exact .inl h
      · subst h; exact .inr ⟨Nat.le_refl _, by simp⟩
    · exact .inr ⟨by omega, by simp only [List.length_cons]; omega⟩

/-- A run of stores leaves every byte outside it. -/
theorem Memory.read_writeList_other (bs : List Byte) : ∀ (m : Memory) {a a' : Nat},
    (a' < a ∨ a + bs.length ≤ a') → Memory.read (Memory.writeList m a bs) a' = Memory.read m a' := by
  induction bs with
  | nil => intros; rfl
  | cons b bs ih =>
    intro m a a' h
    simp only [List.length_cons] at h
    rw [Memory.writeList, ih _ (by omega), Memory.read_write_other _ _ (by omega)]

/-- A run of stores puts its bytes where it says. -/
theorem Memory.read_writeList_same (bs : List Byte) : ∀ {m : Memory} (a : Nat) {i : Nat} (_ : Memory.wf m)
    (hi : i < bs.length), Memory.read (Memory.writeList m a bs) (a + i) = bs[i] := by
  induction bs with
  | nil => intro m a i h hi; exact absurd hi (Nat.not_lt_zero i)
  | cons b bs ih =>
    intro m a i h hi
    rw [Memory.writeList]
    cases i with
    | zero =>
      rw [Memory.read_writeList_other _ _ (by omega)]
      exact Memory.read_write_same a b h
    | succ i =>
      have := ih (m := Memory.write m a b) (a + 1) (i := i) (Memory.write_wf a b h) (by simpa using hi)
      simpa [Nat.add_assoc, Nat.add_comm 1 i] using this

end Sys2Proof.Machine
end

