-- ==== Sys2Proof/Laws/Ops.lean ====
section
/-! SUPPORT. What each shared operation can do, said once: the micro-operations of 40_voice R120, the two memories'
reads, the reset input, and the taking of an input. -/

namespace Sys2Proof.Machine

open Sys2Proof

/-- Writing a record that does not depend on the old one. -/
theorem modify_const {α : Type} (l : List α) (i : Nat) (x : α) : (l.modify i fun _ => x) = l.set i x := by
  apply List.ext_getElem?
  intro j
  rw [List.getElem?_modify, List.getElem?_set]
  by_cases h : i = j
  · subst h
    by_cases hi : i < l.length
    · simp [hi]
    · simp [hi]
  · simp [h]

/-- Writing a record that is there. -/
theorem modify_of_getElem? {α : Type} {l : List α} {i : Nat} {x : α} (f : α → α) (h : l[i]? = some x) :
    l.modify i f = l.set i (f x) := by
  apply List.ext_getElem?
  intro j
  rw [List.getElem?_modify, List.getElem?_set]
  by_cases hj : i = j
  · subst hj
    obtain ⟨hi, hx⟩ := List.getElem?_eq_some_iff.mp h
    simp [hi, hx]
  · simp [hj]

/-- Writing a record of a table that has none there. -/
theorem modify_of_le {α : Type} {l : List α} {i : Nat} (f : α → α) (h : l.length ≤ i) : l.modify i f = l := by
  apply List.ext_getElem?
  intro j
  rw [List.getElem?_modify]
  by_cases hj : i = j
  · subst hj; simp [List.getElem?_eq_none h]
  · simp [hj]

/-- Two updates of one record are one. -/
theorem modify_modify {α : Type} (l : List α) (i : Nat) (f g : α → α) :
    (l.modify i f).modify i g = l.modify i fun x => g (f x) := by
  apply List.ext_getElem?
  intro j
  simp only [List.getElem?_modify]
  split <;> simp [Function.comp_def]

/-- Every record of a modified table is an old one, or the written one. -/
theorem mem_modify {α : Type} {l : List α} {i : Nat} {f : α → α} {y : α} (h : y ∈ l.modify i f) :
    y ∈ l ∨ ∃ x ∈ l, y = f x := by
  obtain ⟨j, hj⟩ := List.mem_iff_getElem?.mp h
  rw [List.getElem?_modify] at hj
  cases hx : l[j]? with
  | none => simp [hx] at hj
  | some x =>
    have hm : x ∈ l := List.mem_of_getElem? hx
    by_cases h : i = j
    · simp [hx, h] at hj; exact .inr ⟨x, hm, hj.symm⟩
    · simp [hx, h] at hj; exact .inl (hj ▸ hm)

/-- `Trigger` either leaves the state or writes one whole voice record (R120). -/
theorem trigger_eq (v : Nat) (base startPos length loopLength incr : Word) (vol pl pr : Gain) (s : State) :
    trigger v base startPos length loopLength incr vol pl pr s = { s with
      voices := if length = 0 then s.voices
        else s.voices.set v (triggered base startPos length loopLength incr vol pl pr) } := by
  unfold trigger
  split
  · rename_i h
    rw [List.set_eq_of_length_le (by simpa [State.nv] using h)]
    split <;> rfl
  · split
    · rfl
    · simp only [State.modifyVoice, State.setVoices, modify_const]

/-- `SetGains` writes three fields of one voice (R120). -/
theorem setGains_eq (v : Nat) (vol pl pr : Gain) (s : State) :
    setGains v vol pl pr s = { s with
      voices := s.voices.modify v fun V => { V with volume := vol, panLeft := pl, panRight := pr } } := by
  unfold setGains
  split
  · rename_i h
    rw [modify_of_le _ (by simpa [State.nv] using h)]
  · rfl

/-- `SetRate` writes the increment of one voice (R120). -/
theorem setRate_eq (v : Nat) (incr : Word) (s : State) :
    setRate v incr s = { s with
      voices := s.voices.modify v fun V => { V with increment := incrementOf incr } } := by
  unfold setRate
  split
  · rename_i h
    rw [modify_of_le _ (by simpa [State.nv] using h)]
  · rfl

/-- The byte of a populated address is the platform's. -/
theorem sampleByte_listed (m : List Host.Cell) (a : Word) (b : Byte) : sampleByte ((a.toNat, b) :: m) a = b := by
  simp [sampleByte]

/-- The byte of an address nobody populated is the free value. -/
theorem sampleByte_unlisted {m : List Host.Cell} {a : Word} (h : ∀ c ∈ m, c.1 ≠ a.toNat) :
    sampleByte m a = Config.unpopulatedSample a := by
  induction m with
  | nil => rfl
  | cons c m ih =>
    have hc : a.toNat ≠ c.1 := fun e => h c (List.mem_cons_self ..) e.symm
    simp only [sampleByte, if_neg hc]
    exact ih fun d hd => h d (List.mem_cons_of_mem _ hd)

/-- What a sink read can answer (R67, 93 U4). -/
theorem sinkRead_cases (s : State) (a : Nat) :
    (a < bufferSize s.consts.spf ∧ sinkRead s a = .ok (Memory.read s.buffer a)) ∨
    (bufferSize s.consts.spf ≤ a ∧ sinkRead s a = .error (.sinkReadOutside a)) := by
  unfold sinkRead
  split
  · exact .inl ⟨‹_›, rfl⟩
  · exact .inr ⟨Nat.le_of_not_lt ‹_›, rfl⟩

/-- What packet assembly can answer: a command, a reserved opcode passed, or held words that are no whole packet
(if they were none before) and an input that is no plain word (R95). -/
theorem fetchPacket_waiting {ins : List Input} : ∀ {held held' : List Word} {rest : List Input},
    decode held = .incomplete → fetchPacket held ins = .waiting held' rest →
    decode held' = .incomplete ∧ ∃ ws, held' = held ++ ws ∧ ins = ws.map .word ++ rest := by
  induction ins with
  | nil =>
    intro held held' rest hd h
    simp only [fetchPacket, Fetched.waiting.injEq] at h
    obtain ⟨rfl, rfl⟩ := h
    exact ⟨hd, [], by simp⟩
  | cons i ins ih =>
    intro held held' rest hd h
    cases i with
    | word w =>
      simp only [fetchPacket] at h
      split at h
      · exact absurd h (by simp)
      · exact absurd h (by simp)
      · rename_i hw
        obtain ⟨h1, ws, h2, h3⟩ := ih hw h
        exact ⟨h1, w :: ws, by simpa using h2, by simp [h3]⟩
    | tick =>
      simp only [fetchPacket, Fetched.waiting.injEq] at h
      obtain ⟨rfl, rfl⟩ := h
      exact ⟨hd, [], by simp⟩
    | tickAndWord w =>
      simp only [fetchPacket, Fetched.waiting.injEq] at h
      obtain ⟨rfl, rfl⟩ := h
      exact ⟨hd, [], by simp⟩
    | reset =>
      simp only [fetchPacket, Fetched.waiting.injEq] at h
      obtain ⟨rfl, rfl⟩ := h
      exact ⟨hd, [], by simp⟩

/-- What a step can do: take an event, hold words, pass a reserved opcode, wait, or run a command with the
assembler empty. -/
theorem step_cases {s t : State} (h : step s = .next t) :
    (t = s ∧ s.inputs = []) ∨
    (∃ rest, s.inputs = .tick :: rest ∧ t = tickEvent (s.setInputs rest)) ∨
    (∃ w rest, s.inputs = .tickAndWord w :: rest ∧ t = tickEvent (s.setInputs (.word w :: rest))) ∨
    (∃ rest, s.inputs = .reset :: rest ∧ t = resetInput (s.setInputs rest)) ∨
    (∃ rest, fetchPacket s.openPacket s.inputs = .reserved rest ∧ t = packetTaken s rest) ∨
    (∃ held rest, fetchPacket s.openPacket s.inputs = .waiting held rest ∧
      t = (s.setOpenPacket held).setInputs rest) ∨
    (∃ i rest, fetchPacket s.openPacket s.inputs = .command i rest ∧ exec i (packetTaken s rest) = .next t) := by
  unfold step takeInput at h
  split at h
  · rename_i hc
    split at hc
    · cases hc; cases h; exact .inl ⟨rfl, ‹_›⟩
    · cases hc; cases h; exact .inr (.inl ⟨_, ‹_›, rfl⟩)
    · cases hc; cases h; exact .inr (.inr (.inl ⟨_, _, ‹_›, rfl⟩))
    · cases hc; cases h; exact .inr (.inr (.inr (.inl ⟨_, ‹_›, rfl⟩)))
    · rename_i hi
      split at hc
      · cases hc
      · cases hc; cases h; exact .inr (.inr (.inr (.inr (.inl ⟨_, by rw [hi]; assumption, rfl⟩))))
      · cases hc; cases h; exact .inr (.inr (.inr (.inr (.inr (.inl ⟨_, _, by rw [hi]; assumption, rfl⟩)))))
  · rename_i hc
    split at hc
    · cases hc
    · cases hc
    · cases hc
    · cases hc
    · rename_i hi
      split at hc
      · cases hc; exact .inr (.inr (.inr (.inr (.inr (.inr ⟨_, _, by rw [hi]; assumption, h⟩)))))
      · cases hc
      · cases hc

end Sys2Proof.Machine
end

