-- ==== Sys2Proof/Laws/Mixer.lean ====
section
/-! SUPPORT. The parts of `MIXFRAME`: which fields a turn touches, how long its contributions are, what the
accumulators hold, where the frame is stored. -/

namespace Sys2Proof.Machine

open Sys2Proof

/-! ### Advance -/

/-- `Advance` touches `position` and `active` only (R145). -/
theorem advance_frame (V : Voice) :
    advance V = { V with position := (advance V).position, active := (advance V).active } := by
  simp only [advance]; split
  · rfl
  · split <;> rfl

/-- `Advance` never activates a voice (R145). -/
theorem advance_inactive {V : Voice} (h : V.active = false) : (advance V).active = false := by
  simp only [advance]; split
  · exact h
  · split
    · rfl
    · exact h

@[simp] theorem advance_length (V : Voice) : (advance V).length = V.length := by rw [advance_frame]
@[simp] theorem advance_loopLength (V : Voice) : (advance V).loopLength = V.loopLength := by rw [advance_frame]
@[simp] theorem advance_increment (V : Voice) : (advance V).increment = V.increment := by rw [advance_frame]
@[simp] theorem advance_volume (V : Voice) : (advance V).volume = V.volume := by rw [advance_frame]
@[simp] theorem advance_panLeft (V : Voice) : (advance V).panLeft = V.panLeft := by rw [advance_frame]
@[simp] theorem advance_panRight (V : Voice) : (advance V).panRight = V.panRight := by rw [advance_frame]
@[simp] theorem advance_envEn (V : Voice) : (advance V).envEn = V.envEn := by rw [advance_frame]
@[simp] theorem advance_phase (V : Voice) : (advance V).phase = V.phase := by rw [advance_frame]
@[simp] theorem advance_level (V : Voice) : (advance V).level = V.level := by rw [advance_frame]
@[simp] theorem advance_sustainLevel (V : Voice) : (advance V).sustainLevel = V.sustainLevel := by rw [advance_frame]
@[simp] theorem advance_base (V : Voice) : (advance V).base = V.base := by rw [advance_frame]

/-! ### One turn -/

/-- A turn has one contribution for each output index (R161). -/
theorem playSamples_length (m : List Host.Cell) (c : Ctrl) (g : Nat) : ∀ (k : Nat) (V : Voice),
    (playSamples m c g k V).2.length = k := by
  intro k
  induction k with
  | zero => intro V; rfl
  | succ k ih =>
    intro V
    rw [playSamples]
    split
    · simp only [List.length_cons, ih]
    · simp

/-- The sample loop touches `position` and `active` only (R160). -/
theorem playSamples_frame (m : List Host.Cell) (c : Ctrl) (g : Nat) : ∀ (k : Nat) (V : Voice),
    (playSamples m c g k V).1 =
      { V with position := (playSamples m c g k V).1.position, active := (playSamples m c g k V).1.active } := by
  intro k
  induction k with
  | zero => intro V; rfl
  | succ k ih =>
    intro V
    rw [playSamples]
    split
    · simp only
      rw [ih (advance V), advance_frame V]
    · rfl

/-- A voice that is inactive at its turn is left as it is and contributes nothing (R161). -/
theorem playSamples_inactive (m : List Host.Cell) (c : Ctrl) (g k : Nat) {V : Voice} (h : V.active = false) :
    playSamples m c g k V = (V, List.replicate k (0, 0)) := by
  cases k with
  | zero => rfl
  | succ k => rw [playSamples, if_neg (by simp [h])]

@[simp] theorem voiceTurn_length (m : List Host.Cell) (c : Ctrl) (spf : Nat) (V : Voice) :
    (voiceTurn m c spf V).2.2.length = spf := playSamples_length ..

@[simp] theorem voiceTurn_contributes (m : List Host.Cell) (c : Ctrl) (spf : Nat) (V : Voice) :
    (voiceTurn m c spf V).2.1 = (turnStart V).active := rfl

/-! ### The accumulators -/

theorem addContributions_length {a b : List (Int × Int)} (h : b.length = a.length) :
    (addContributions a b).length = a.length := by simp [addContributions, h]

/-- The accumulators after some turns, from any start: each index holds the start plus the sum of the turns'
contributions there (R161, R162). -/
theorem accumulate_from {n : Nat} : ∀ (ts : List (Voice × Bool × List (Int × Int))) (a : List (Int × Int)),
    a.length = n → (∀ t ∈ ts, t.2.2.length = n) →
    (ts.foldl (fun acc t => addContributions acc t.2.2) a).length = n ∧
    ∀ i < n, (ts.foldl (fun acc t => addContributions acc t.2.2) a).getD i (0, 0) =
      ((a.getD i (0, 0)).1 + (ts.map fun t => (t.2.2.getD i (0, 0)).1).sum,
        (a.getD i (0, 0)).2 + (ts.map fun t => (t.2.2.getD i (0, 0)).2).sum) := by
  intro ts
  induction ts with
  | nil => intro a ha _; simp [ha]
  | cons t ts ih =>
    intro a ha ht
    have htl : t.2.2.length = n := ht t (List.mem_cons_self ..)
    have hl : (addContributions a t.2.2).length = n := by rw [addContributions_length (by omega), ha]
    obtain ⟨h1, h2⟩ := ih (addContributions a t.2.2) hl fun u hu => ht u (List.mem_cons_of_mem _ hu)
    refine ⟨h1, fun i hi => ?_⟩
    rw [List.foldl_cons, h2 i hi]
    have ha' : i < a.length := by omega
    have ht' : i < t.2.2.length := by omega
    have hs : (addContributions a t.2.2).getD i (0, 0) =
        ((a.getD i (0, 0)).1 + (t.2.2.getD i (0, 0)).1, (a.getD i (0, 0)).2 + (t.2.2.getD i (0, 0)).2) := by
      simp [addContributions, List.getD_eq_getElem?_getD, ha', ht']
    simp only [hs, List.map_cons, List.sum_cons, Int.add_assoc]

theorem accumulate_length {spf : Nat} {ts : List (Voice × Bool × List (Int × Int))}
    (h : ∀ t ∈ ts, t.2.2.length = spf) : (accumulate spf ts).length = spf :=
  (accumulate_from ts _ (List.length_replicate ..) h).1

/-- The accumulators at an index: the sums of the turns' contributions there (R161). -/
theorem accumulate_getD {spf i : Nat} {ts : List (Voice × Bool × List (Int × Int))}
    (h : ∀ t ∈ ts, t.2.2.length = spf) (hi : i < spf) :
    (accumulate spf ts).getD i (0, 0) =
      ((ts.map fun t => (t.2.2.getD i (0, 0)).1).sum, (ts.map fun t => (t.2.2.getD i (0, 0)).2).sum) := by
  have := (accumulate_from ts (List.replicate spf (0, 0)) (List.length_replicate ..) h).2 i hi
  rw [accumulate, this]
  simp [List.getD_eq_getElem?_getD, hi]

theorem frameTurns_length (s : State) : ∀ t ∈ frameTurns s, t.2.2.length = s.consts.spf := by
  intro t ht
  obtain ⟨V, _, rfl⟩ := List.mem_map.mp ht
  exact voiceTurn_length ..

/-! ### The store of the frame -/

theorem outAddr_add (spf : Nat) (r h : Bool) (i : Nat) : outAddr spf r h i = outAddr spf r h 0 + i := by
  simp [outAddr]

/-- Every address of a half lies in the output buffer memory (R65). -/
theorem outAddr_lt {spf i : Nat} (r h : Bool) (hi : i < spf) : outAddr spf r h i < bufferSize spf := by
  cases r <;> cases h <;> simp [outAddr, bufferSize] <;> omega

/-- The store of a frame keeps the canonical form. -/
theorem storeFrame_wf {spf : Nat} (stereo fill : Bool) (sh : Nat) (acc : List (Int × Int)) {m : Memory}
    (h : Memory.wf m) : Memory.wf (storeFrame spf stereo fill sh acc m) := by
  simp only [storeFrame]; split
  · exact Memory.writeList_wf _ _ (Memory.writeList_wf _ _ h)
  · exact Memory.writeList_wf _ _ h

/-- The store of a frame lists no address outside the output buffer memory. -/
theorem mem_storeFrame {spf : Nat} (stereo fill : Bool) (sh : Nat) {acc : List (Int × Int)} {m : Memory}
    {c : Host.Cell} (hl : acc.length = spf) (h : c ∈ storeFrame spf stereo fill sh acc m) :
    c ∈ m ∨ c.1 < bufferSize spf := by
  have key : ∀ (r : Bool) (m' : Memory) (bs : List Byte), bs.length = spf →
      c ∈ Memory.writeList m' (outAddr spf r fill 0) bs → c ∈ m' ∨ c.1 < bufferSize spf := by
    intro r m' bs hbs hc
    rcases Memory.mem_writeList bs hc with hc | ⟨_, hc⟩
    · exact .inl hc
    · refine .inr (Nat.lt_of_lt_of_le hc ?_)
      cases r <;> cases fill <;> simp [outAddr, bufferSize] <;> omega
  simp only [storeFrame] at h
  split at h
  · rcases key _ _ _ (by simp [hl]) h with h | h
    · exact key _ _ _ (by simp [hl]) h
    · exact .inr h
  · exact key _ _ _ (by simp [hl]) h

/-- What the store of a frame puts in the fill half of the left channel (R171). -/
theorem storeFrame_left {spf i : Nat} (stereo fill : Bool) (sh : Nat) {acc : List (Int × Int)} {m : Memory}
    (h : Memory.wf m) (hl : acc.length = spf) (hi : i < spf) :
    Memory.read (storeFrame spf stereo fill sh acc m) (outAddr spf false fill i) =
      outByte sh (acc.getD i (0, 0)).1 := by
  have base : Memory.read (Memory.writeList m (outAddr spf false fill 0) (acc.map fun a => outByte sh a.1))
      (outAddr spf false fill i) = outByte sh (acc.getD i (0, 0)).1 := by
    rw [outAddr_add spf false fill i, Memory.read_writeList_same _ _ h (by simpa [hl] using hi)]
    simp [List.getD_eq_getElem?_getD, hl, hi]
  simp only [storeFrame]; split
  · rw [Memory.read_writeList_other, base]
    simp only [List.length_map, hl]
    cases fill <;> simp [outAddr] <;> omega
  · exact base

/-- What the store of a frame puts in the fill half of the right channel, in stereo (R171). -/
theorem storeFrame_right {spf i : Nat} (fill : Bool) (sh : Nat) {acc : List (Int × Int)} {m : Memory}
    (h : Memory.wf m) (hl : acc.length = spf) (hi : i < spf) :
    Memory.read (storeFrame spf true fill sh acc m) (outAddr spf true fill i) =
      outByte sh (acc.getD i (0, 0)).2 := by
  simp only [storeFrame, if_true]
  rw [outAddr_add spf true fill i, Memory.read_writeList_same _ _ (Memory.writeList_wf _ _ h) (by simpa [hl] using hi)]
  simp [List.getD_eq_getElem?_getD, hl, hi]

/-- What the store of a frame leaves (R66, R160). -/
theorem storeFrame_other {spf a : Nat} (stereo fill : Bool) (sh : Nat) {acc : List (Int × Int)} {m : Memory}
    (hl : acc.length = spf) (h1 : ∀ i < spf, a ≠ outAddr spf false fill i)
    (h2 : stereo = true → ∀ i < spf, a ≠ outAddr spf true fill i) :
    Memory.read (storeFrame spf stereo fill sh acc m) a = Memory.read m a := by
  have key : ∀ (r : Bool) (m' : Memory) (bs : List Byte), bs.length = spf → (∀ i < spf, a ≠ outAddr spf r fill i) →
      Memory.read (Memory.writeList m' (outAddr spf r fill 0) bs) a = Memory.read m' a := by
    intro r m' bs hbs ha
    refine Memory.read_writeList_other _ _ (Decidable.or_iff_not_imp_left.mpr fun hlt => Nat.le_of_not_lt fun hlt' => ?_)
    refine ha (a - outAddr spf r fill 0) (by omega) ?_
    rw [outAddr_add]; omega
  simp only [storeFrame]; split
  · rename_i hs
    rw [key _ _ _ (by simp [hl]) (h2 hs), key _ _ _ (by simp [hl]) h1]
  · rw [key _ _ _ (by simp [hl]) h1]

end Sys2Proof.Machine
end

