-- ==== Sys2Proof/Laws/Exec.lean ====
section
/-! SUPPORT. What each command can do when it answers a next state, said once for each shape of command. Later proofs
cite these and do not unfold a meaning. -/

namespace Sys2Proof.Machine

open Sys2Proof

/-- `TRIG` writes the voice table only, and keeps its length (R121). -/
theorem trig_next {slot : Byte} {p : Bool} {b sp l ll inc : Word} {vo pl pr : Byte} {s t : State}
    (h : exec (.trig slot p b sp l ll inc vo pl pr) s = .next t) :
    ∃ vs, t = { s with voices := vs } ∧ vs.length = s.voices.length := by
  simp only [exec, execTrig] at h
  split at h <;> cases h
  · rw [trigger_eq]; refine ⟨_, rfl, ?_⟩; split <;> simp
  · exact ⟨_, rfl, rfl⟩

/-- Every command but `UPDPOS`, `MIXFRAME` and `WRREG` writes the voice table only, and keeps its length. -/
theorem voices_next {i : Instr} {s t : State} (h : exec i s = .next t)
    (h1 : ∀ a v, i ≠ .wrreg a v) (h2 : ∀ a v w, i ≠ .updpos a v w) (h3 : i ≠ .mixframe) :
    ∃ vs, t = { s with voices := vs } ∧ vs.length = s.voices.length := by
  cases i with
  | trig => exact trig_next h
  | stop =>
    simp only [exec, execStop] at h; split at h <;> cases h
    · exact ⟨_, rfl, rfl⟩
    · exact ⟨_, rfl, by simp⟩
  | setgain => simp only [exec, execSetgain] at h; cases h; rw [setGains_eq]; exact ⟨_, rfl, by simp⟩
  | setrate => simp only [exec, execSetrate] at h; cases h; rw [setRate_eq]; exact ⟨_, rfl, by simp⟩
  | noteon =>
    simp only [exec, execNoteon] at h; split at h
    · cases h; exact ⟨_, rfl, rfl⟩
    · split at h
      · cases h; exact ⟨_, rfl, rfl⟩
      · split at h <;> cases h
        · exact ⟨_, rfl, rfl⟩
        · exact ⟨_, rfl, by simp⟩
  | noteoff =>
    simp only [exec, execNoteoff] at h; split at h <;> cases h
    · exact ⟨_, rfl, rfl⟩
    · exact ⟨_, rfl, by simp⟩
  | updpos => exact absurd rfl (h2 _ _ _)
  | mixframe => exact absurd rfl h3
  | wrreg => exact absurd rfl (h1 _ _)

/-- `MIXFRAME` writes the voice table and the output buffer memory only (R160). -/
theorem mix_next {s t : State} (h : exec .mixframe s = .next t) :
    ∃ b, t = { s with
      voices := s.voices.map fun V => (voiceTurn s.samples s.ctrl s.consts.spf V).1, buffer := b } := by
  simp only [exec, execMixframe] at h; cases h
  exact ⟨_, by simp only [State.setVoices, State.setBuffer, frameTurns, List.map_map]; rfl⟩

/-- Synthetic mode writes the voice table only (R247). -/
theorem synthetic_eq (S : Source) (vol pl pr : Gain) (f : Bool) (s : State) :
    ∃ vs, synthetic S vol pl pr f s = { s with voices := vs } ∧ vs.length = s.voices.length := by
  simp only [synthetic]; split
  · rw [trigger_eq]; refine ⟨_, rfl, ?_⟩; split <;> simp
  · rw [setRate_eq, setGains_eq]; exact ⟨_, rfl, by simp⟩

/-- LUT mode writes the voice table and the bucket of its source only (R250). -/
theorem lookup_eq (k : Nat) (S : Source) (dx : Int) (vol : Gain) (f : Bool) (s : State) :
    ∃ vs b, lookup k S dx vol f s = { s with voices := vs, sources := b } ∧ vs.length = s.voices.length ∧
      (b = s.sources ∨ b = s.sources.modify k fun T =>
        { T with bucket := BitVec.ofNat 8 (azimuthBucket dx S.hx.toNat S.nb.toNat) }) := by
  simp only [lookup]; split
  · split
    · exact ⟨_, _, rfl, rfl, .inr rfl⟩
    · rw [trigger_eq, trigger_eq]; refine ⟨_, _, rfl, ?_, .inr rfl⟩; simp only; split <;> simp
  · rw [setGains_eq, setGains_eq]; exact ⟨_, _, rfl, by simp, .inl rfl⟩

/-- `UPDPOS` leaves the state, or writes the voice table and the one source it names (R240). -/
theorem upd_next {slot : Byte} {x y : Half16} {s t : State} (h : exec (.updpos slot x y) s = .next t) :
    t = s ∨ ∃ S vs T, s.sources[slot.toNat]? = some S ∧ S.en = true ∧
      t = { s with voices := vs, sources := s.sources.set slot.toNat T } ∧ vs.length = s.voices.length ∧
      (T = moved S x y ∨
        T = { moved S x y with bucket := BitVec.ofNat 8 (azimuthBucket (offsetX S x) S.hx.toNat S.nb.toNat) }) := by
  simp only [exec, execUpdpos] at h
  split at h
  · cases h; exact .inl rfl
  · rename_i S hS
    split at h
    · rename_i hen
      right
      split at h
      · cases h
        obtain ⟨vs, b, e, hl, hb⟩ := lookup_eq slot.toNat (moved S x y) (offsetX S x) (positionVolume S x y) (flips S y) (s.modifySource slot.toNat fun _ => moved S x y)
        have hlt := (List.getElem?_eq_some_iff.mp hS).1
        rcases hb with hb | hb
        · refine ⟨S, vs, moved S x y, hS, hen, ?_, hl, .inl rfl⟩
          rw [e, hb]; simp only [State.modifySource, State.setSources, modify_const]
        · refine ⟨S, vs, _, hS, hen, ?_, hl, .inr rfl⟩
          rw [e, hb]; simp only [State.modifySource, State.setSources, modify_const]
          congr 1
          rw [modify_of_getElem? (x := moved S x y) _ (by simp [hlt])]
          rw [List.set_set]; rfl
      · cases h
        obtain ⟨vs, e, hl⟩ := synthetic_eq (moved S x y) (positionVolume S x y) (BitVec.ofNat 7 (panLeftOf (offsetX S x) S.hx.toNat)) (BitVec.ofNat 7 (panRightOf (offsetX S x) S.hx.toNat)) (flips S y) (s.modifySource slot.toNat fun _ => moved S x y)
        refine ⟨S, vs, moved S x y, hS, hen, ?_, hl, .inl rfl⟩
        rw [e]; simp only [State.modifySource, State.setSources, modify_const]
    · cases h; exact .inl rfl

/-- `WRREG` writes one register of one table, or nothing (R270, R275). -/
theorem wr_next {a : Half16} {v : Word} {s t : State} (h : exec (.wrreg a v) s = .next t) :
    (∃ c, t = { s with ctrl := c }) ∨ (∃ k n, t = s.modifyInstrument k (writeInstrument n v)) ∨
    (∃ k n, t = s.modifySource k (writeSource n v)) ∨ (∃ k n, t = s.modifyLut k (writeLut n v)) ∨ t = s := by
  simp only [exec, execWrreg, writeRegister] at h
  split at h
  · cases h; exact .inl ⟨_, rfl⟩
  · split at h
    · cases h; exact .inr (.inl ⟨_, _, rfl⟩)
    · split at h
      · cases h; exact .inr (.inr (.inl ⟨_, _, rfl⟩))
      · split at h
        · cases h; exact .inr (.inr (.inr (.inl ⟨_, _, rfl⟩)))
        · cases h; exact .inr (.inr (.inr (.inr rfl)))

end Sys2Proof.Machine
end

