-- ==== Sys2Proof/Laws/PerInstr.lean ====
section
/-! SUPPORT. The statements made for every command as syntax, one lemma for each constructor of `Instr`. -/

namespace Sys2Proof.Laws

open Sys2Proof

/-- The packet the encoder writes has the length of the command's row (R90, R93), is well-formed as one packet, and
carries the row's opcode in its header (R91). -/
def PacketShape.Statement (i : Instr) : Prop :=
  (encode i).length = i.packetLength ∧ PacketWf (encode i) = true ∧ i.WellFormed = true ∧
    (encode i).head?.map opcOf = some i.opcode

theorem packetFlaw_header (o v : Byte) (imm : Half16) (ws : List Word) (h : operandCount o = some ws.length) :
    PacketWf (header o v imm :: ws) = true := by
  have e : (header o v imm).extractLsb' 24 8 = o := opcOf_header o v imm
  simp [PacketWf, packetFlaw, e, h]

theorem PacketShape.trig (slot : Byte) (present : Bool) (base startPos length loopLength inc : Word)
    (vol panL panR : Byte) :
    PacketShape.Statement (.trig slot present base startPos length loopLength inc vol panL panR) :=
  ⟨rfl, packetFlaw_header _ _ _ _ rfl, rfl, congrArg some (opcOf_header ..)⟩

theorem PacketShape.stop (slot : Byte) : PacketShape.Statement (.stop slot) :=
  ⟨rfl, packetFlaw_header _ _ _ _ rfl, rfl, congrArg some (opcOf_header ..)⟩

theorem PacketShape.setgain (slot vol panL panR : Byte) : PacketShape.Statement (.setgain slot vol panL panR) :=
  ⟨rfl, packetFlaw_header _ _ _ _ rfl, rfl, congrArg some (opcOf_header ..)⟩

theorem PacketShape.setrate (slot : Byte) (inc : Word) : PacketShape.Statement (.setrate slot inc) :=
  ⟨rfl, packetFlaw_header _ _ _ _ rfl, rfl, congrArg some (opcOf_header ..)⟩

theorem PacketShape.noteon (slot instr key vel : Byte) : PacketShape.Statement (.noteon slot instr key vel) :=
  ⟨rfl, packetFlaw_header _ _ _ _ rfl, rfl, congrArg some (opcOf_header ..)⟩

theorem PacketShape.noteoff (slot : Byte) : PacketShape.Statement (.noteoff slot) :=
  ⟨rfl, packetFlaw_header _ _ _ _ rfl, rfl, congrArg some (opcOf_header ..)⟩

theorem PacketShape.updpos (slot : Byte) (x y : Half16) : PacketShape.Statement (.updpos slot x y) :=
  ⟨rfl, packetFlaw_header _ _ _ _ rfl, rfl, congrArg some (opcOf_header ..)⟩

theorem PacketShape.mixframe : PacketShape.Statement .mixframe :=
  ⟨rfl, packetFlaw_header _ _ _ _ rfl, rfl, congrArg some (opcOf_header ..)⟩

theorem PacketShape.wrreg (addr : Half16) (value : Word) : PacketShape.Statement (.wrreg addr value) :=
  ⟨rfl, packetFlaw_header _ _ _ _ rfl, rfl, congrArg some (opcOf_header ..)⟩

end Sys2Proof.Laws
end

