-- ==== Sys2Proof/Tests/Slice0.lean ====
section
/-! SUPPORT. Tests: packets the decoder must refuse, words written out from the encoding of each command, one step of
each command with the result that the spec's worked examples and vectors give, and a witness for the hypotheses of
each statement. Expected values are those of spec/, the rule or vector named with each. -/

namespace Sys2Proof.Tests

open Sys2Proof Sys2Proof.Machine Sys2Proof.Safety

/-! ### Helpers -/

/-- The sample memory of programs P1 and P3 of spec/95_test_vectors.md. -/
def samples : List Host.Cell :=
  [(0x100, 10), (0x101, 20), (0x102, 30), (0x103, 40), (0x200, 0x80), (0x201, 0x7F), (0x202, 0xFF), (0x203, 0)]

/-- A small instance right after reset: `nv` slots, 4 samples a frame, 2 instruments, 2 sources, 12 table entries. -/
def small (nv : Nat) : State :=
  { State.resetOf ⟨nv, 2, 2, 12, ⟨4, 18157, 69433, 61858⟩⟩ with samples := samples }

/-- The state a command leaves. -/
def after (i : Instr) (s : State) : State :=
  match exec i s with
  | .next t => t
  | _ => s

/-- The state a step leaves. -/
def stepped (s : State) : State :=
  match step s with
  | .next t => t
  | _ => s

/-- A voice that loops over the four bytes at 0x100. -/
def looping : Voice := { Voice.reset with
  active := true, base := 0x100, increment := 0x1000, length := 0x4000, loopLength := 0x4000,
  volume := 64, panLeft := 64, panRight := 64 }

/-- A voice that plays the four bytes at 0x200 once, one and a half samples at a time (P1, voice 1). -/
def once : Voice := { Voice.reset with
  active := true, base := 0x200, increment := 0x1800, length := 0x4000, volume := 32, panRight := 64 }

/-- The note of P2, its sample at 0x100 instead. -/
def note : Voice := { looping with
  envEn := true, sounding := true, attack := 2, decay := 1, sustainLevel := 128, release := 2 }

/-- Voice 0 loops, voice 1 plays once. -/
def two : State := { small 2 with voices := [looping, once] }

/-- The source of R249. -/
def source : Source := { Source.reset with
  en := true, cx := 120, cy := 80, hx := 120, hy := 80, swFront := 70, swBack := 90, maxVol := 64,
  fBase := 0x1000, fLen := 0x100000, fLoop := 0x100000, fInc := 66,
  bBase := 0x2000, bLen := 0x100000, bLoop := 0x100000, bInc := 44 }

/-- The source of R254. -/
def lutSource : Source := { Source.reset with
  en := true, lutMode := true, hx := 100, hy := 100, maxVol := 64, vA := 2, vB := 3,
  fLen := 0x200000, fLoop := 0x200000, fInc := 4096, nb := 4, lutBase := 8 }

/-- Sources 0 of R249 and 1 of R254, with the table of R254. -/
def positional : State := { small 4 with
  sources := [source, lutSource]
  lut := List.replicate 8 LutEntry.reset ++
    [⟨0x8000, 0x8800⟩, ⟨0x9000, 0x9800⟩, ⟨0xA000, 0xA800⟩, ⟨0xB000, 0xB800⟩] }

/-- An instrument with a sample of two bytes, as P2 writes it. -/
def instrument : Instrument := { Instrument.reset with
  base := 0x300, nsamples := 2, nativeRate := 18157, attack := 2, decay := 1, sustainLevel := 128, release := 2 }

/-- Four slots, instrument 0 as P2 writes it. -/
def instrumental : State := { small 4 with instruments := [instrument, Instrument.reset] }

/-! ### WellFormed: one ill-formed packet for each check -/

/-- R90: a packet has a header. -/
theorem test_wf_refuses_no_header : packetFlaw [] = some .noHeader := by decide

/-- R98: 0x0A is the first opcode after the last command's. -/
theorem test_wf_refuses_reserved_opcode : packetFlaw [0x0A000000, 0x00000001] = some (.reservedOpcode 0x0A) := by
  decide

/-- R93: `SETGAIN` has one operand word. -/
theorem test_wf_refuses_missing_operand : packetFlaw [0x03000000] = some (.wrongLength 1 0) := by decide

/-- R93: `MIXFRAME` has none. -/
theorem test_wf_refuses_extra_operand : packetFlaw [0x08000000, 0] = some (.wrongLength 0 1) := by decide

/-- R93: `TRIG` has six. -/
theorem test_wf_refuses_short_trig : PacketWf [0x01000001, 0, 0, 0, 0, 0] = false := by decide

/-! ### Decode: each command's words written out bit by bit, as OPC SLOT IMM and the fields of R92 -/

/-- R91, R92, R101: `TRIG 5` with `P = 1`; GAINS 0x40 PANR, 0x20 PANL, 0x30 VOL. -/
theorem test_decode_trig :
    decode [0b00000001000001010000000000000001, 0x00001000, 0x00002000, 0x00003000, 0x00004000, 0x00000042,
      0b00000000010000000010000000110000] =
      .instr (.trig 5 true 0x1000 0x2000 0x3000 0x4000 0x42 0x30 0x20 0x40) [] := by decide

/-- R91: `STOP 5`. -/
theorem test_decode_stop : decode [0b00000010000001010000000000000000] = .instr (.stop 5) [] := by decide

/-- R92: GAINS is VOL [7:0], PANL [15:8], PANR [23:16]. -/
theorem test_decode_setgain :
    decode [0b00000011000000010000000000000000, 0b00000000001000000110010011111011] =
      .instr (.setgain 1 0xFB 100 32) [] := by decide

/-- R92: FIX is the whole operand word. -/
theorem test_decode_setrate :
    decode [0b00000100000000110000000000000000, 0b00000000000000000001000000000000] =
      .instr (.setrate 3 4096) [] := by decide

/-- R92: NOTE is INSTR [7:0], KEY [15:8], VEL [23:16]. -/
theorem test_decode_noteon :
    decode [0b00000101000000010000000000000000, 0b00000000001100100100100000000010] =
      .instr (.noteon 1 2 72 50) [] := by decide

/-- R91: `NOTEOFF 1`. -/
theorem test_decode_noteoff : decode [0b00000110000000010000000000000000] = .instr (.noteoff 1) [] := by decide

/-- R92: POS is X [15:0], Y [31:16]. -/
theorem test_decode_updpos :
    decode [0b00000111000000000000000000000000, 0b11111111111111010000000001111000] =
      .instr (.updpos 0 120 0xFFFD) [] := by decide

/-- R91: `MIXFRAME`, V-ENC-2's bits that are ignored set. -/
theorem test_decode_mixframe : decode [0b00001000101010110001001000110100] = .instr .mixframe [] := by decide

/-- R91: the address of `WRREG` is IMM. -/
theorem test_decode_wrreg :
    decode [0b00001001111111110010000000000011, 0x00500078] = .instr (.wrreg 0x2003 0x00500078) [] := by decide

/-- V-ENC-2: only bit 0 of IMM is `P`. -/
theorem test_decode_trig_null :
    decode [0x0100FFFE, 0, 0, 0, 0, 0, 0] = .instr (asmTrigNull 0) [] ∧
    decode [0x0100FFFF, 0, 0, 0, 0, 0, 0] = .instr (.trig 0 true 0 0 0 0 0 0 0 0) [] := by decide

/-- R69: the bytes of the transport are little-endian; `WRREG 0x0000, 3` of R104. -/
theorem test_decode_bytes : decodeBytes [0x00, 0x00, 0x00, 0x09, 0x03, 0x00, 0x00, 0x00] =
    .instr (.wrreg 0 3) [] := by decide

/-- R102, R103: operands as the assembler writes them, with the words of V-ENC-1. -/
theorem test_assembler :
    encode (asmSetgain 1 (-5) 100 32) = [0x03010000, 0x002064FB] ∧
    encode (asmUpdpos 1 (-50) 0) = [0x07010000, 0x0000FFCE] ∧
    encode (asmSetrateHz 18157 3 293) = [0x04030000, 0x00000042] ∧
    encode (asmNoteon 0 15 200 (-1)) = [0x05000000, 0x00FFC80F] := by decide

/-- The opcode table's bit numbering: the second word's bits count on from 32. -/
theorem test_table_word :
    decodeTableWord 64 0x0000000309000000 = some (.wrreg 0 3) ∧ decodeTableWord 32 0x02050000 = some (.stop 5) ∧
    decodeTableWord 32 0xAB123456 = none := by decide

/-! ### The port (R95, R297) -/

/-- V-ENC-3, its first packets: a reserved word, `STOP 5`, `SETRATE 0, 0x08000000`. -/
theorem test_cut :
    fetchPacket [] [.word 0xAB123456, .word 0x02050000] = .reserved [.word 0x02050000] ∧
    fetchPacket [] [.word 0x04000000, .word 0x08000000, .tick] = .command (.setrate 0 0x08000000) [.tick] := by
  decide

/-- V-ENC-4: a `TICK` between the words of `SETGAIN` comes first, and the packet goes on. -/
theorem test_tick_inside :
    let s := stepped (stepped { two with inputs := [.word 0x03000000, .tick, .word 0x00204040] })
    s.live = true ∧ s.presented = [⟨true, 4, 12⟩] ∧ s.voices = two.voices ∧ s.openPacket = [0x03000000] := by decide

/-- The first step after reset runs the command placed for it. -/
theorem test_place :
    stepped (State.reset.withFetchWord 64 0x0000000309000000) = { State.reset with ctrl := ⟨true, true⟩ } := by
  decide +kernel

/-- R67, 93 U4: the sink reads below `4 x SPF`, beyond it the read is refused by name. -/
theorem test_sink :
    sinkRead (small 1) 15 = .ok 0 ∧ sinkRead (small 1) 16 = .error (.sinkReadOutside 16) := by decide

/-- R45: the status wires. -/
theorem test_wires :
    statusActive { small 1 with voices := [looping, { once with active := false }] } = [true, false] ∧
    statusSounding { small 1 with voices := [note, looping] } = [true, false] ∧ statusLive (small 1) = false := by
  decide

/-! ### Voice commands -/

/-- V-VOICE-2: `TRIG 1, 0x200, 9<<12, 0x3800, 0x9000, 0, 100, -3, 64`. -/
theorem test_trig_sanitises :
    (after (.trig 1 true 0x200 0x9000 0x3800 0x9000 0 100 0xFD 64) (small 2)).voices[1]? =
      some { Voice.reset with
        active := true, base := 0x200, position := 0x37FF, increment := 1, length := 0x3800, loopLength := 0x3800
        volume := 64, panLeft := 0, panRight := 64 } := by decide

/-- V-VOICE-3: `TRIG.NULL` leaves a playing voice. -/
theorem test_trig_null : after (asmTrigNull 0) two = two := by decide

/-- V-VOICE-6: a Playing voice ends at once; a Note voice goes to Release. -/
theorem test_stop :
    (after (.stop 0) two).voices = [{ looping with active := false }, once] ∧
    (after (.stop 0) { small 1 with voices := [{ note with phase := .decay, level := 200 }] }).voices =
      [{ note with phase := .release, level := 200, sounding := false }] := by decide

/-- V-VOICE-4: `SETGAIN 1, -5, 100, 32`. -/
theorem test_setgain :
    (after (.setgain 1 0xFB 100 32) two).voices =
      [looping, { once with volume := 0, panLeft := 64, panRight := 32 }] := by decide

/-- V-VOICE-7: a slot out of range touches no voice. -/
theorem test_setgain_out_of_range : after (.setgain 9 1 2 3) two = two := by decide

/-- V-VOICE-5: `SETRATE 1, 0` gives 1, `SETRATE 1, 0xFFFFFFFF` itself. -/
theorem test_setrate :
    (after (.setrate 1 0) two).voices = [looping, { once with increment := 1 }] ∧
    (after (.setrate 1 0xFFFFFFFF) two).voices = [looping, { once with increment := 0xFFFFFFFF }] := by decide

/-! ### Envelope -/

/-- P2: the record after `NOTEON 2, 0, 60, 64`. -/
theorem test_noteon :
    (after (.noteon 2 0 60 64) instrumental).voices[2]? =
      some { note with base := 0x300, length := 0x2000, loopLength := 0x2000 } := by decide +kernel

/-- R202's table at `MIX_RATE = 18157`, native 8000: keys 61, 48, 0 and 200 (as 127). -/
theorem test_note_rates :
    noteRate Config.Consts.default 8000 61 = 8475 ∧ noteRate Config.Consts.default 8000 48 = 3997 ∧
    noteRate Config.Consts.default 8000 0 = 240 ∧ noteRate Config.Consts.default 8000 200 = 383147 ∧
    (noteIncrement Config.Consts.default 8475).toNat = 1911 ∧
    (noteIncrement Config.Consts.default 383147).toNat = 86433 := by decide +kernel

/-- R203: `NOTEOFF` mid-attack, the level kept. -/
theorem test_noteoff :
    (after (.noteoff 0) { small 1 with voices := [{ note with level := 77 }] }).voices =
      [{ note with level := 77, sounding := false, phase := .release }] := by decide

/-- S5: `attack = 0` reaches 255 and Decay in one tick, and no Decay action. P2: attack 2 gives 128, then 255. -/
theorem test_attack :
    envTick { note with attack := 0 } = { note with attack := 0, level := 255, phase := .decay } ∧
    envTick note = { note with level := 128 } ∧
    envTick { note with level := 128 } = { note with level := 255, phase := .decay } := by decide

/-- P2: Release at rate 2 goes 128, 64 and 1, 0 with the voice ended. -/
theorem test_release :
    envTick { note with phase := .release, level := 128 } = { note with phase := .release, level := 64 } ∧
    envTick { note with phase := .release, level := 1 } =
      { note with phase := .release, level := 0, active := false } := by decide

/-! ### Fetch and advance -/

/-- V-RES-1, the rows that round. -/
theorem test_blend :
    ([(10, 20, 0xFFF), (10, -20, 1), (-20, 10, 1), (-128, 127, 0x800), (127, -128, 0x800), (127, -128, 0xFFF),
      (0, -1, 1)].map fun r : Int × Int × Nat => blend r.1 r.2.1 r.2.2) = [19, 9, -20, -1, -1, -128, -1] := by decide

/-- V-RES-2: at 0x3400 of a length 0x3800 the final index 3 blends with index 0 to 32; at 0x0C00 Nearest reads 10 and
Interpolated 17. -/
theorem test_fetch :
    fetchSample samples true { looping with length := 0x3800, position := 0x3400 } = 32 ∧
    fetchSample samples true { looping with length := 0x3800, position := 0x0C00 } = 17 ∧
    fetchSample samples false { looping with length := 0x3800, position := 0x0C00 } = 10 ∧
    fetchSample samples false { looping with length := 0x3800, position := 0x2400 } = 30 := by decide

/-- R166, R168 e: `-50 * 1 * 3` over 64 is -2 and not -3; P3's pan of 48. -/
theorem test_contribution :
    contribution true 1 { looping with panLeft := 3, panRight := 0 } (-50) = (-2, 0) ∧
    contribution true 32 { looping with panLeft := 48, panRight := 16 } 10 = (240, 80) := by decide

/-- R149, S3: several subtractions in one advance. -/
theorem test_advance_wraps :
    advance { looping with
      position := 0x384000, increment := 0x5DC000, length := 0x3E8000, loopLength := 0x258000 } =
      { looping with
        position := 0x258000, increment := 0x5DC000, length := 0x3E8000, loopLength := 0x258000 } := by decide

/-! ### The mixer -/

/-- R177: one voice, left 10 20 30 40 and right 5 10 15 20 into half 1. -/
theorem test_mixframe :
    (after .mixframe { small 2 with voices := [{ looping with loopLength := 0, panRight := 32 }, Voice.reset] }).buffer =
      [(4, 0x0A), (5, 0x14), (6, 0x1E), (7, 0x28), (12, 0x05), (13, 0x0A), (14, 0x0F), (15, 0x14)] := by decide

/-- P1, its first frame: two voices, interpolation, one ends. -/
theorem test_mixframe_two :
    let s := after .mixframe { two with ctrl := ⟨true, true⟩, voices := [{ looping with increment := 0x800 }, once] }
    s.buffer = [(4, 0x05), (5, 0x08), (6, 0x0A), (7, 0x0D), (12, 0xE5), (13, 0x17), (14, 0x0A), (15, 0x0D)] ∧
    s.voices = [{ looping with increment := 0x800, position := 0x2000 },
      { once with active := false, position := 0x4800 }] := by decide

/-! ### The positional mapper -/

/-- R249, row 4 and row 5: gains and increment refreshed, then a flip to Back. -/
theorem test_updpos_synthetic :
    (after (.updpos 0 181 60) { positional with voices := [looping] }).voices =
      [{ looping with volume := 31, panLeft := 16, panRight := 48, increment := 66 }] ∧
    (after (.updpos 0 120 91) { positional with voices := [looping] }).voices =
      [{ looping with base := 0x2000, increment := 44, length := 0x100000, loopLength := 0x100000
                      volume := 55, panLeft := 32, panRight := 32 }] := by decide

/-- R254, row 3: bucket 1, entry 9, the pair at position 0. -/
theorem test_updpos_lut :
    let s := after (.updpos 1 0xFFCE 0) positional
    (s.voices.map fun V => (V.active, V.base, V.volume, V.panLeft, V.panRight)) =
      [(false, 0, 0, 0, 0), (false, 0, 0, 0, 0), (true, 0x9000, 32, 64, 0), (true, 0x9800, 32, 0, 64)] ∧
    s.sources[1]?.map (·.bucket) = some 1 := by decide

/-! ### Configuration -/

/-- P5: bit 2 of `CTRL` is ignored; P3: the half-extents of source 0. -/
theorem test_wrreg :
    (after (.wrreg 0 4) two).ctrl = ⟨false, false⟩ ∧
    (after (.wrreg 0x2003 0x00500078) two).sources[0]? = some { Source.reset with hx := 120, hy := 80 } := by decide

/-- P5: an address with no register; P2: word 5 of instrument 0; P4: table entry 9. -/
theorem test_wrreg_maps :
    after (.wrreg 0x0FFF 0xDEADBEEF) two = two ∧
    (after (.wrreg 0x1005 0x00020080) two).instruments[0]? =
      some { Instrument.reset with sustainLevel := 128, release := 2 } ∧
    (after (.wrreg 0x4013 0x100) two).lut[9]? = some ⟨0, 0x100⟩ := by decide

/-- R221, P1: `TICK` flips and presents `(1, 4, 12)`, then `(0, 0, 8)`. -/
theorem test_tick :
    (tickEvent (small 1)).presented = [⟨true, 4, 12⟩] ∧
    (tickEvent (tickEvent (small 1))).presented = [⟨true, 4, 12⟩, ⟨false, 0, 8⟩] ∧
    (tickEvent (small 1)).live = true := by decide

/-! ### Witnesses: states and operands that meet the hypotheses of each statement, each clause at a boundary -/

theorem witness_DecodeTakesOnePacket :
    decode [0x03010000, 0x00004040, 7] = .instr (.setgain 1 64 64 0) [7] ∧
    decode [0x00000000, 7] = .reserved 0x00 [7] ∧ decode [0x0A000000] = .reserved 0x0A [] ∧
    decode [] = .incomplete ∧ decode [0x01000001, 0, 0, 0, 0, 0] = .incomplete := by decide

theorem witness_IgnoredBitsHaveNoEffect :
    (opcOf 0x0800FFFF = opcOf 0x08AB1234) ∧
    (opcOf 0x0100FFFF = 0x01 ∧ slotOf 0x0100FFFF = slotOf 0x01000001 ∧
      (0x0100FFFF : Word).getLsbD 0 = (0x01000001 : Word).getLsbD 0) ∧
    (opcOf 0x09FF0000 = 0x09 ∧ opcOf 0x09000000 = 0x09 ∧ immOf 0x09FF0000 = immOf 0x09000000) ∧
    (opcOf 0x03010000 = 0x03 ∧ (0xFF004040 : Word).extractLsb' 0 24 = (0x00004040 : Word).extractLsb' 0 24) ∧
    ((4 : Word) &&& implementedBits 2 2 12 0 = 0 &&& implementedBits 2 2 12 0) ∧
    ((0xFFF00001 : Word) &&& implementedBits 2 2 12 0x1009 = 1 &&& implementedBits 2 2 12 0x1009) ∧
    ((8 : Word) &&& implementedBits 2 2 12 0x2010 = 0 &&& implementedBits 2 2 12 0x2010) ∧
    ((8 : Word) &&& implementedBits 2 2 12 0x4018 = 0 &&& implementedBits 2 2 12 0x4018) := by decide

theorem witness_ReservedOpcodeIsOneWordNoOp :
    let s (w : Word) : State := { two with inputs := [.word w, .word 0x02050000] }
    ((s 0x00123456).openPacket = [] ∧ opcOf 0x00123456 = 0x00) ∧
    ((s 0x0A000000).openPacket = [] ∧ 0x0A ≤ (opcOf 0x0A000000).toNat) ∧
    ((s 0xFF000000).openPacket = [] ∧ 0x0A ≤ (opcOf 0xFF000000).toNat) := by decide

theorem witness_OutOfRangeSlotIsNoOp :
    two.nv ≤ (2 : Byte).toNat ∧ two.ns ≤ (2 : Byte).toNat ∧ decode [0x03020000, 0] = .instr (.setgain 2 0 0 0) [] ∧
    decode [0x07020000, 0] = .instr (.updpos 2 0 0) [] ∧ two.openPacket = [] := by decide

theorem witness_GainFieldsClamp :
    (0x40 : Byte).toNat ≤ 0x40 ∧ 0x41 ≤ (0x41 : Byte).toNat ∧ (0x7F : Byte).toNat ≤ 0x7F ∧
    0x80 ≤ (0x80 : Byte).toNat ∧ (0x00FFFF7F : Word).extractLsb' 0 8 = (0x7F : Byte) := by decide

theorem witness_StepRunsDecodedPacket :
    let s : State := { two with openPacket := [0x03000000], inputs := [.word 0x00204040, .tick] }
    decode (s.openPacket ++ [0x00204040]) = .instr (.setgain 0 64 64 32) [] ∧
    s.inputs = [0x00204040].map .word ++ [.tick] := by decide

theorem witness_TickFlipsAndPresents :
    ({ two with openPacket := [0x03000000], inputs := [.tick, .tick] } : State).inputs = .tick :: [.tick] := by
  decide

theorem witness_TickGoesFirstOnTie :
    let s : State := { two with inputs := [.tickAndWord 0x08000000] }
    s.inputs = .tickAndWord 0x08000000 :: [] ∧ s.openPacket = [] ∧ opcOf 0x08000000 = 0x08 := by decide

theorem witness_TickInsideOpenPacket :
    let s : State := { two with inputs := [.word 0x03000000, .tick, .word 0x00204040] }
    decode ([0x03000000] ++ [0x00204040]) = .instr (.setgain 0 64 64 32) [] ∧ s.openPacket = [] ∧
    s.inputs = [0x03000000].map .word ++ .tick :: ([0x00204040].map .word ++ []) := by decide

theorem witness_OpenPacketWaits :
    ({ two with inputs := [.word 0x01000001, .word 0, .word 0, .word 0, .word 0, .word 0] } : State).inputs =
      [0x01000001, 0, 0, 0, 0, 0].map .word ∧
    decode (two.openPacket ++ [0x01000001, 0, 0, 0, 0, 0]) = .incomplete ∧
    two.inputs = ([] : List Word).map .word ∧ decode (two.openPacket ++ []) = .incomplete := by decide

theorem witness_ResetInputRestoresResetValues :
    ({ two with openPacket := [0x03000000], inputs := [.reset, .tick] } : State).inputs = .reset :: [.tick] := by
  decide

theorem witness_StepKeepsInstance :
    ∃ t, step { two with inputs := [.word 0x02000000] } = .next t ∧ t.voices ≠ two.voices := ⟨_, rfl, by decide⟩

theorem witness_NoCommandFlipsLiveOrPresents : ∃ t, exec .mixframe two = .next t ∧ t ≠ two := ⟨_, rfl, by decide⟩

theorem witness_OnlyMixframeWritesBuffer :
    Instr.stop 0 ≠ .mixframe ∧ ∃ t, exec (.stop 0) two = .next t ∧ t ≠ two := ⟨by decide, _, rfl, by decide⟩

theorem witness_OnlyWrregWritesRegisters :
    (∃ t, exec (.updpos 0 120 91) positional = .next t ∧ positional.sources[0]? = some source ∧
      t.sources[0]? = some { source with x := 120, y := 91, facing := .back }) ∧
    ∃ t, exec (.wrreg 0x2005 7) positional = .next t ∧ t.sources[0]? = some { source with maxVol := 7 } :=
  ⟨⟨_, rfl, rfl, by decide⟩, _, rfl, by decide⟩

theorem witness_TrigStartsVoice :
    (0 : Word) = 0 ∧ two.nv ≤ (2 : Byte).toNat ∧ (1 : Word) ≠ 0 ∧ (1 : Byte).toNat < two.nv := by decide

theorem witness_SetgainWritesGains :
    two.voices[(1 : Byte).toNat]? = some once ∧ two.nv ≤ (2 : Byte).toNat := by decide

theorem witness_SetrateWritesIncrement :
    two.voices[(1 : Byte).toNat]? = some once ∧ two.nv ≤ (2 : Byte).toNat := by decide

theorem witness_StopEndsOrReleases :
    (two.voices[(1 : Byte).toNat]? = some once ∧ once.envEn = false) ∧
    ({ two with voices := [note] } : State).voices[(0 : Byte).toNat]? = some note ∧ note.envEn = true ∧
    two.nv ≤ (2 : Byte).toNat := by decide

theorem witness_InactiveVoiceStaysInactive :
    (small 1).voices[0]? = some Voice.reset ∧ Voice.reset.active = false ∧
    ∃ t, exec (.setgain 0 1 2 3) (small 1) = .next t ∧
      t.voices[0]? = some { Voice.reset with volume := 1, panLeft := 2, panRight := 3 } :=
  ⟨by decide, rfl, _, rfl, by decide⟩

theorem witness_NoteonStartsNote :
    instrumental.nv ≤ (4 : Byte).toNat ∧ instrumental.ni ≤ (2 : Byte).toNat ∧
    instrumental.instruments[(0 : Byte).toNat]? = some instrument ∧ instrument.nsamples ≠ 0 ∧
    instrumental.instruments[(1 : Byte).toNat]? = some Instrument.reset ∧ Instrument.reset.nsamples = 0 ∧
    (3 : Byte).toNat < instrumental.nv := by decide

theorem witness_NoteRateIteratesSemitones :
    (60 ≤ 60 ∧ 60 < 127) ∧ (60 ≤ 126 ∧ 126 < 127) ∧ 59 < 60 ∧ 127 ≤ 127 := by decide

theorem witness_NoteoffForcesRelease :
    ({ two with voices := [note] } : State).voices[(0 : Byte).toNat]? = some note ∧ two.nv ≤ (2 : Byte).toNat := by
  decide

theorem witness_EnvelopeTickPerPhase :
    note.phase = .attack ∧
    note.sustainLevel.toNat < ({ note with phase := .decay, level := 129 } : Voice).level.toNat ∧
    ({ note with phase := .decay, level := 128 } : Voice).level.toNat ≤ note.sustainLevel.toNat ∧
    ({ note with phase := .sustain } : Voice).phase = .sustain ∧
    ({ note with phase := .release } : Voice).phase = .release := by decide

theorem witness_EnvelopeLevelMonotone :
    let V : Voice := { note with phase := .decay, level := 128 }
    note.phase = .attack ∧ (V.phase = .decay ∧ V.sustainLevel.toNat ≤ V.level.toNat) ∧
    ({ V with phase := .sustain } : Voice).phase = .sustain ∧
    ({ V with phase := .release } : Voice).phase = .release := by decide

theorem witness_EnvelopePhasesEnd :
    let V : Voice := { note with phase := .decay, level := 255 }
    (({ note with attack := 256 } : Voice).phase = .attack ∧
      ({ note with attack := 256 } : Voice).attack.toNat ≤ 256) ∧
    (V.phase = .decay ∧ V.sustainLevel.toNat ≤ V.level.toNat) ∧
    ({ V with phase := .release } : Voice).phase = .release ∧
    (({ note with attack := 257, level := 254 } : Voice).phase = .attack ∧
      256 < ({ note with attack := 257, level := 254 } : Voice).attack.toNat ∧
      ({ note with attack := 257, level := 254 } : Voice).level.toNat < 255) := by decide

theorem witness_AdvanceFollowsWhileLoop :
    ({ looping with position := 0x2FFF } : Voice).position.toNat + looping.increment.toNat < looping.length.toNat ∧
    (once.length.toNat ≤ ({ once with position := 0x2800 } : Voice).position.toNat + once.increment.toNat ∧
      once.loopLength = 0) ∧
    (looping.length.toNat ≤ ({ looping with position := 0x3000 } : Voice).position.toNat + looping.increment.toNat ∧
      looping.loopLength ≠ 0 ∧ looping.loopLength.toNat ≤ looping.length.toNat ∧ 0x4000 ≤ 0x4000) := by decide

theorem witness_LoopWrapKeepsPhase :
    let V : Voice := { looping with position := 0x3000 }
    V.loopLength ≠ 0 ∧ V.loopLength.toNat ≤ V.length.toNat ∧
    V.length.toNat ≤ V.position.toNat + V.increment.toNat := by decide

theorem witness_PositionStaysInExtent :
    VoiceOk { looping with position := 0x3FFF } ∧
    (advance { looping with position := 0x3FFF }).active = true := by decide

theorem witness_InterpolationBlends :
    (samplesWf samples ∧ ((0x203 : Word).toNat, (0 : Byte)) ∈ samples ∧ ((0x200 : Word).toNat, (0x80 : Byte)) ∈ samples) ∧
    4095 < 4096 ∧ ({ looping with length := 0x1000, loopLength := 0x1000 } : Voice).active = true ∧
    VoiceOk { looping with length := 0x1000, loopLength := 0x1000 } ∧
    sampleCount { looping with length := 0x1000, loopLength := 0x1000 } = 1 := by decide

theorem witness_FetchReadsOnlyItsExtent :
    VoiceOk { looping with position := 0x3FFF } ∧ looping.active = true ∧
    ∀ i < (looping.length.toNat + 4095) / 4096, sampleByte samples (looping.base + BitVec.ofNat 32 i) =
      sampleByte (samples ++ [(0x300, 1)]) (looping.base + BitVec.ofNat 32 i) := by decide

theorem witness_MixframeFillsTheFillHalf :
    Memory.wf ({ two with buffer := [(0, 1), (15, 2)] } : State).buffer ∧ two.ctrl.stereo = true := by decide

theorem witness_MixframeVoiceFrame :
    ∃ t, exec .mixframe { two with voices := [looping, once, Voice.reset, note] } = .next t ∧
      t.voices[0]? = some looping ∧ t.voices[2]? = some Voice.reset ∧
      t.voices[3]? = some { note with level := 128 } ∧ looping.envEn = false ∧ Voice.reset.active = false :=
  ⟨_, rfl, by decide, by decide, by decide, rfl, rfl⟩

theorem witness_ApplierProperties :
    (-128 : Int) ≤ -128 ∧ (127 : Int) ≤ 127 ∧ 64 ≤ 64 ∧ looping.panLeft.toNat ≤ 64 ∧ looping.panRight.toNat ≤ 64 ∧
    looping.panLeft = 64 ∧ looping.panRight = 64 ∧ once.panLeft = 0 ∧
    ({ looping with panRight := 0 } : Voice).panRight = 0 := by decide

/-- A sound state that is not the reset state: two voices play, a packet is open, the buffer is not empty. -/
def sound : State :=
  { two with voices := [looping, once, note], openPacket := [0x03000000], buffer := [(0, 1), (15, 2)]
             inputs := [.word 0x00204040] }

theorem witness_inv : Inv sound :=
  { constsOk := by decide
    sizesOk := by decide
    samplesOk := by decide
    voicesOk := by decide
    bufferOk := by decide
    sourcesOk := by decide
    openPacketOk := by decide }

theorem witness_AccumulatorsNeverOverflow : Inv sound ∧ frameVoices sound = 3 := ⟨witness_inv, by decide⟩

theorem witness_ClampNeverChangesAFrame : Inv sound ∧ frameVoices sound = 3 := ⟨witness_inv, by decide⟩

theorem witness_DownscaleRoundsToNearest : max 5 1 ≤ 2 ^ 3 ∧ 1 ≤ 6 := by decide

theorem witness_NoActiveVoiceMixesSilence :
    let s : State := { small 2 with buffer := [(4, 1), (12, 2)] }
    Memory.wf s.buffer ∧ (∀ V ∈ s.voices, V.active = false) ∧ s.ctrl.stereo = true := by decide

theorem witness_TickHandsOffTheMixedFrame :
    let s : State := { two with inputs := [.word 0x08000000, .tick] }
    Memory.wf s.buffer ∧ s.openPacket = [] ∧ opcOf 0x08000000 = 0x08 ∧
    s.inputs = .word 0x08000000 :: .tick :: [] ∧ s.ctrl.stereo = true := by decide

theorem witness_UpdposOfDisabledSourceIsNoOp :
    (∀ S, two.sources[(1 : Byte).toNat]? = some S → S.en = false) ∧
    (∀ S, two.sources[(2 : Byte).toNat]? = some S → S.en = false) :=
  ⟨fun S h => by cases h; rfl, fun S h => nomatch h⟩

theorem witness_UpdposSyntheticMode :
    positional.sources[(0 : Byte).toNat]? = some source ∧ source.en = true ∧ source.lutMode = false ∧
    ¬ Crosses source 90 ∧ Crosses source 91 ∧ ¬ Crosses { source with facing := .back } 70 ∧
    Crosses { source with facing := .back } 69 := by decide

theorem witness_UpdposLutMode :
    let S : Source := { lutSource with fbSel := true, bucket := 0 }
    positional.sources[(1 : Byte).toNat]? = some lutSource ∧ lutSource.en = true ∧ lutSource.lutMode = true ∧
    (azimuthBucket (-100 - 0) 100 4 = S.bucket.toNat ∧ ¬ Crosses S 0) ∧
    (azimuthBucket (-100 - 0) 100 4 ≠ lutSource.bucket.toNat ∧ ¬ Crosses lutSource 0 ∧ lutSource.fLen ≠ 0 ∧
      positional.lut[8 + 0 + 0]? = some ⟨0x8000, 0x8800⟩) ∧
    (S.fbSel = true ∧ Crosses S 1 ∧ Facing.back ≠ S.facing ∧ positional.nl ≤ 8 + 4 + 0) := by decide

theorem witness_PanIsLinearCrossfade :
    1 ≤ 1 ∧ (-1 : Int) ≤ -(1 : Nat) ∧ ((1 : Nat) : Int) ≤ 1 ∧ (-(1 : Nat) : Int) ≤ 0 ∧ (0 : Int) ≤ (1 : Nat) := by
  decide

theorem witness_DistanceIsChebyshev :
    1 ≤ 1 ∧ 1 ≤ 65535 ∧ 1 ≤ (-1 : Int).natAbs ∧ 65535 ≤ (65535 : Int).natAbs := by decide

theorem witness_FacingHasHysteresis :
    (∃ t, exec (.updpos 0 120 91) positional = .next t ∧ positional.sources[0]? = some source ∧
      t.sources[0]? = some { source with x := 120, y := 91, facing := .back }) ∧
    source.swFront.toInt ≤ (70 : Half16).toInt ∧ (90 : Half16).toInt ≤ source.swBack.toInt :=
  ⟨⟨_, rfl, rfl, by decide⟩, by decide, by decide⟩

theorem witness_AzimuthBucketInRange : 1 ≤ 1 ∧ 1 ≤ 128 ∧ 128 ≤ 128 ∧ (-1 : Int) ≤ -(1 : Nat) ∧
    ((1 : Nat) : Int) ≤ 1 ∧ lutSource.bucket = 0xFF := by decide

theorem witness_PairStaysPhaseLocked :
    let s : State := { two with voices := [looping, { looping with base := 0x200, panLeft := 0 }] }
    ∃ t, exec .mixframe s = .next t ∧ s.voices[0]? = some looping ∧
      s.voices[1]? = some { looping with base := 0x200, panLeft := 0 } ∧ t.voices[0]? = some looping ∧
      t.voices[1]? = some { looping with base := 0x200, panLeft := 0 } ∧ looping.envEn = false :=
  ⟨_, rfl, by decide, by decide, by decide, by decide, rfl⟩

theorem witness_WrregWritesInstrument :
    instrumental.ni ≤ 256 ∧ instrumental.instruments[1]? = some Instrument.reset ∧
    (0x1008 : Half16).toNat = 0x1000 + 8 * 1 ∧ (0x100F : Half16).toNat = 0x1000 + 8 * 1 + 7 := by decide

theorem witness_WrregWritesSource :
    positional.ni ≤ 256 ∧ positional.ns ≤ 256 ∧ positional.sources[1]? = some lutSource ∧
    (0x2010 : Half16).toNat = 0x2000 + 16 * 1 ∧ (0x201F : Half16).toNat = 0x2000 + 16 * 1 + 15 ∧
    (0x201E : Half16).toNat = 0x2000 + 16 * 1 + 14 ∧
    (128 : Byte).toNat = min (max ((0xFF : Word).extractLsb' 0 8).toNat 1) 128 := by decide

theorem witness_WrregWritesTable :
    positional.ni ≤ 256 ∧ positional.ns ≤ 256 ∧ positional.lut[11]? = some ⟨0xB000, 0xB800⟩ ∧
    (0x4016 : Half16).toNat = 0x4000 + 2 * 11 ∧ (0x4017 : Half16).toNat = 0x4000 + 2 * 11 + 1 := by decide

theorem witness_WrregUnmappedIsNoOp :
    ((0x1010 : Half16) ≠ 0 ∧
      ¬ (0x1000 ≤ (0x1010 : Half16).toNat ∧ (0x1010 : Half16).toNat < 0x1000 + 8 * positional.ni) ∧
      ¬ (0x2000 ≤ (0x1010 : Half16).toNat ∧ (0x1010 : Half16).toNat < 0x2000 + 16 * positional.ns) ∧
      ¬ (0x4000 ≤ (0x1010 : Half16).toNat ∧ (0x1010 : Half16).toNat < 0x4000 + 2 * positional.nl)) ∧
    ((0x2020 : Half16) ≠ 0 ∧
      ¬ (0x1000 ≤ (0x2020 : Half16).toNat ∧ (0x2020 : Half16).toNat < 0x1000 + 8 * positional.ni) ∧
      ¬ (0x2000 ≤ (0x2020 : Half16).toNat ∧ (0x2020 : Half16).toNat < 0x2000 + 16 * positional.ns) ∧
      ¬ (0x4000 ≤ (0x2020 : Half16).toNat ∧ (0x2020 : Half16).toNat < 0x4000 + 2 * positional.nl)) ∧
    ((0x4018 : Half16) ≠ 0 ∧
      ¬ (0x1000 ≤ (0x4018 : Half16).toNat ∧ (0x4018 : Half16).toNat < 0x1000 + 8 * positional.ni) ∧
      ¬ (0x2000 ≤ (0x4018 : Half16).toNat ∧ (0x4018 : Half16).toNat < 0x2000 + 16 * positional.ns) ∧
      ¬ (0x4000 ≤ (0x4018 : Half16).toNat ∧ (0x4018 : Half16).toNat < 0x4000 + 2 * positional.nl)) := by decide

theorem witness_ResetIsSound : Config.Params.wf ⟨256, 256, 256, 4096, ⟨65535, 16777215, 65537, 0⟩⟩ := by decide +kernel

theorem witness_StepKeepsSoundness : Inv sound ∧ ∃ t, step sound = .next t ∧ t.voices ≠ sound.voices :=
  ⟨witness_inv, _, rfl, by decide⟩

end Sys2Proof.Tests
end

section
/-! Proofs of the statements on the scope of a step: what a step runs (spec/00_scope.md rule R14,
spec/30_encoding.md rule R95) and what no step changes (R8, R9, R61). -/

namespace Sys2Proof

/-! ### A packet that is read to its end (R90, R95) -/

/-- A list that one command's packet fills to its end has exactly the operand words its header calls for. -/
theorem operandCount_of_decode_instr_nil {h : Word} {ops : List Word} {i : Instr}
    (hd : decode (h :: ops) = .instr i []) : operandCount (opcOf h) = some ops.length := by
  rcases decode_class h ops with ⟨-, he⟩ | ⟨k, -, -, he⟩ | ⟨k, j, hk, hle, he⟩
  · simp [he] at hd
  · simp [he] at hd
  · simp only [he, Decoded.instr.injEq, List.drop_eq_nil_iff] at hd
    rw [hk, Nat.le_antisymm hle hd.2]

/-- With fewer operand words than its header calls for, a packet is still open. -/
theorem decode_incomplete_of_lt {h : Word} {ops : List Word} {k : Nat}
    (hk : operandCount (opcOf h) = some k) (hlt : ops.length < k) : decode (h :: ops) = .incomplete := by
  rcases decode_class h ops with ⟨hn, -⟩ | ⟨-, -, -, he⟩ | ⟨k', i, hk', hle, -⟩
  · simp [hn] at hk
  · exact he
  · have : k' = k := Option.some.inj (hk'.symm.trans hk)
    omega

/-- Every proper beginning of a command's packet is an open packet. -/
theorem decode_prefix_incomplete {p q : List Word} {i : Instr} (hq : q ≠ [])
    (hd : decode (p ++ q) = .instr i []) : decode p = .incomplete := by
  cases p with
  | nil => rfl
  | cons h ops =>
    have hpos : 0 < q.length := List.length_pos_iff.mpr hq
    exact decode_incomplete_of_lt (operandCount_of_decode_instr_nil hd) (by simpa using hpos)

namespace Machine

/-- Packet assembly takes words until they complete the packet with those already held (R95). -/
theorem fetchPacket_command {i : Instr} {rest : List Input} : ∀ {ws held : List Word}, ws ≠ [] →
    decode (held ++ ws) = .instr i [] → fetchPacket held (ws.map .word ++ rest) = .command i rest
  | [], _, hne, _ => absurd rfl hne
  | [w], held, _, hd => by simp [fetchPacket, hd]
  | w :: w' :: ws, held, _, hd => by
    have hd' : decode ((held ++ [w]) ++ (w' :: ws)) = .instr i [] := by simpa using hd
    have hopen : decode (held ++ [w]) = .incomplete := decode_prefix_incomplete (by simp) hd'
    have ih := fetchPacket_command (rest := rest) (by simp) hd'
    simpa [fetchPacket, hopen] using ih

/-- When a word arrives and completes a packet, the step is its command with the packet consumed (R14). -/
theorem step_of_fetchPacket_command {s : State} {w : Word} {ins rest : List Input} {i : Instr}
    (hin : s.inputs = .word w :: ins) (hf : fetchPacket s.openPacket (.word w :: ins) = .command i rest) :
    step s = exec i (packetTaken s rest) := by
  simp only [step, takeInput, hin, hf]

end Machine

namespace Safety

open Machine

/-! ### What no step changes (R8, R9, R61) -/

theorem SameInstance.trans {s t u : State} (h₁ : SameInstance s t) (h₂ : SameInstance t u) :
    SameInstance s u := by
  obtain ⟨hc, hm, hv, hi, hs, hl⟩ := h₁
  obtain ⟨hc', hm', hv', hi', hs', hl'⟩ := h₂
  exact ⟨hc'.trans hc, hm'.trans hm, hv'.trans hv, hi'.trans hi, hs'.trans hs, hl'.trans hl⟩

theorem SameInstance.refl (s : State) : SameInstance s s := ⟨rfl, rfl, rfl, rfl, rfl, rfl⟩

theorem sameInstance_setInputs (s : State) (is : List Input) : SameInstance s (s.setInputs is) :=
  ⟨rfl, rfl, rfl, rfl, rfl, rfl⟩

theorem sameInstance_setOpenPacket (s : State) (ws : List Word) : SameInstance s (s.setOpenPacket ws) :=
  ⟨rfl, rfl, rfl, rfl, rfl, rfl⟩

theorem sameInstance_packetTaken (s : State) (rest : List Input) : SameInstance s (packetTaken s rest) :=
  (sameInstance_setOpenPacket s []).trans (sameInstance_setInputs _ rest)

theorem sameInstance_tickEvent (s : State) : SameInstance s (tickEvent s) := ⟨rfl, rfl, rfl, rfl, rfl, rfl⟩

/-- The reset input builds every table anew at its old size (R320, R321). -/
theorem sameInstance_resetInput (s : State) : SameInstance s (resetInput s) :=
  ⟨rfl, rfl, State.resetOf_nv _, State.resetOf_ni _, State.resetOf_ns _, State.resetOf_nl _⟩

theorem sameInstance_of_voices {s t : State}
    (h : ∃ vs, t = { s with voices := vs } ∧ vs.length = s.voices.length) : SameInstance s t := by
  obtain ⟨vs, rfl, hlen⟩ := h
  exact ⟨rfl, rfl, hlen, rfl, rfl, rfl⟩

theorem sameInstance_of_updpos {slot : Byte} {x y : Half16} {s t : State}
    (h : exec (.updpos slot x y) s = .next t) : SameInstance s t := by
  obtain rfl | ⟨S, vs, T, -, -, rfl, hlen, -⟩ := upd_next h
  · exact .refl _
  · exact ⟨rfl, rfl, hlen, rfl, List.length_set, rfl⟩

theorem sameInstance_of_mixframe {s t : State} (h : exec .mixframe s = .next t) : SameInstance s t := by
  obtain ⟨b, rfl⟩ := mix_next h
  exact ⟨rfl, rfl, List.length_map _, rfl, rfl, rfl⟩

theorem sameInstance_of_wrreg {a : Half16} {v : Word} {s t : State}
    (h : exec (.wrreg a v) s = .next t) : SameInstance s t := by
  obtain ⟨c, rfl⟩ | ⟨k, n, rfl⟩ | ⟨k, n, rfl⟩ | ⟨k, n, rfl⟩ | rfl := wr_next h
  · exact ⟨rfl, rfl, rfl, rfl, rfl, rfl⟩
  · exact ⟨rfl, rfl, rfl, State.modifyInstrument_ni .., rfl, rfl⟩
  · exact ⟨rfl, rfl, rfl, rfl, State.modifySource_ns .., rfl⟩
  · exact ⟨rfl, rfl, rfl, rfl, rfl, State.modifyLut_nl ..⟩
  · exact .refl _

/-- No command changes the parameters, a table's size or the sample memory. -/
theorem sameInstance_of_exec {i : Instr} {s t : State} (h : exec i s = .next t) : SameInstance s t := by
  cases i with
  | trig | stop | setgain | setrate | noteon | noteoff =>
    exact sameInstance_of_voices (voices_next h nofun nofun nofun)
  | updpos => exact sameInstance_of_updpos h
  | mixframe => exact sameInstance_of_mixframe h
  | wrreg => exact sameInstance_of_wrreg h

end Safety

namespace Proofs

open Machine Safety

/-- Settles O15: over the seven things a step can do. -/
theorem stepKeepsInstance : Obligations.StepKeepsInstance := by
  intro s t h
  obtain ⟨rfl, -⟩ | ⟨rest, -, rfl⟩ | ⟨w, rest, -, rfl⟩ | ⟨rest, -, rfl⟩ | ⟨rest, -, rfl⟩ |
    ⟨held, rest, -, rfl⟩ | ⟨i, rest, -, hexec⟩ := step_cases h
  · exact .refl _
  · exact (sameInstance_setInputs s _).trans (sameInstance_tickEvent _)
  · exact (sameInstance_setInputs s _).trans (sameInstance_tickEvent _)
  · exact (sameInstance_setInputs s _).trans (sameInstance_resetInput _)
  · exact sameInstance_packetTaken s rest
  · exact (sameInstance_setOpenPacket s held).trans (sameInstance_setInputs _ rest)
  · exact (sameInstance_packetTaken s rest).trans (sameInstance_of_exec hexec)

/-- Settles O8: the words complete the packet held, by induction on the words that arrive. -/
theorem stepRunsDecodedPacket : Obligations.StepRunsDecodedPacket := by
  intro s i ws rest hne hd hin
  have hf : fetchPacket s.openPacket (ws.map .word ++ rest) = .command i rest := fetchPacket_command hne hd
  cases ws with
  | nil => exact absurd rfl hne
  | cons w ws => exact step_of_fetchPacket_command hin hf

end Proofs

end Sys2Proof
end

section
/-! Proofs of the statements on the state (spec/10_state.md): what a command leaves unchanged (R38, R39, R66, R223),
the write of `CTRL` (R37, R270), and the invariant of a sound state, kept part by part: voice records (R24 to R29,
R193, R194), source records (R42, R43), the output buffer memory (R39) and the assembler (R48). -/

namespace Sys2Proof

namespace Machine

/-! ### What a command writes -/

/-- A command writes tables, `CTRL` and the output buffer memory at most, and only `MIXFRAME` writes the memory. -/
theorem exec_writes {i : Instr} {s t : State} (h : exec i s = .next t) :
    ∃ vs c b is ss es,
      t = { s with voices := vs, ctrl := c, buffer := b, instruments := is, sources := ss, lut := es } ∧
      (i ≠ .mixframe → b = s.buffer) := by
  cases i with
  | trig | stop | setgain | setrate | noteon | noteoff =>
    obtain ⟨vs, rfl, -⟩ := voices_next h nofun nofun nofun
    exact ⟨vs, _, _, _, _, _, rfl, fun _ => rfl⟩
  | updpos =>
    obtain rfl | ⟨S, vs, T, -, -, rfl, -⟩ := upd_next h
    · exact ⟨_, _, _, _, _, _, rfl, fun _ => rfl⟩
    · exact ⟨vs, _, _, _, _, _, rfl, fun _ => rfl⟩
  | mixframe =>
    obtain ⟨b, rfl⟩ := mix_next h
    exact ⟨_, _, b, _, _, _, rfl, fun hne => absurd rfl hne⟩
  | wrreg =>
    obtain ⟨c, rfl⟩ | ⟨k, n, rfl⟩ | ⟨k, n, rfl⟩ | ⟨k, n, rfl⟩ | rfl := wr_next h <;>
      exact ⟨_, _, _, _, _, _, rfl, fun _ => rfl⟩

/-- No command takes words into the assembler: they are taken before it runs (R95). -/
theorem exec_openPacket {i : Instr} {s t : State} (h : exec i s = .next t) : t.openPacket = s.openPacket := by
  obtain ⟨vs, c, b, is, ss, es, rfl, -⟩ := exec_writes h
  rfl

theorem exec_buffer {i : Instr} {s t : State} (hne : i ≠ .mixframe) (h : exec i s = .next t) :
    t.buffer = s.buffer := by
  obtain ⟨vs, c, b, is, ss, es, rfl, hb⟩ := exec_writes h
  exact hb hne

/-- Address 0 of the register map is `CTRL` (R271). -/
theorem writeRegister_zero (value : Word) (s : State) : writeRegister 0 value s = s.setCtrl (ctrlOf value) := rfl

/-! ### Bounds of what the meanings store -/

theorem toNat_ofNat_le (w n : Nat) : (BitVec.ofNat w n).toNat ≤ n :=
  BitVec.toNat_ofNat n w ▸ Nat.mod_le ..

theorem gain_ofNat_le {n : Nat} (h : n ≤ 64) : (BitVec.ofNat 7 n).toNat ≤ 64 :=
  (toNat_ofNat_le ..).trans h

theorem gainOf_le (b : Byte) : (gainOf b).toNat ≤ 64 := (gainOf_toNat b).trans_le (clampg_le b)

/-- The offset of `Pan` and of the bucket, scaled to `0..n`: `clamp` puts it in `0..2h` first (R241, R251). -/
theorem scaledOffset_le (d : Int) {h : Nat} (n : Nat) (hpos : 1 ≤ h) :
    ((clamp d (-h) h + h) * n / (2 * h)).toNat ≤ n := by
  obtain ⟨-, hle⟩ := clamp_bounds (v := d) (lo := -(h : Int)) (hi := h) (by omega)
  have hmul : (clamp d (-h) h + h) * n ≤ (2 * h) * n := Int.mul_le_mul_of_nonneg_right (by omega) (by omega)
  have hdiv : (clamp d (-h) h + h) * n / (2 * h) ≤ n :=
    Int.ediv_le_of_le_mul (by omega) (by rwa [Int.mul_comm (n : Int)])
  omega

theorem panRightOf_le (dx : Int) {hx : Nat} (hpos : 1 ≤ hx) : panRightOf dx hx ≤ 64 := scaledOffset_le dx 64 hpos

theorem panLeftOf_le (dx : Int) (hx : Nat) : panLeftOf dx hx ≤ 64 := Nat.sub_le ..

/-- The distance law never exceeds `maxVol` (R242). -/
theorem axisVolume_le (d : Int) (h maxVol : Nat) : axisVolume d h maxVol ≤ maxVol :=
  Nat.div_le_of_le_mul (by rw [Nat.mul_comm]; exact Nat.mul_le_mul_right _ (Nat.sub_le ..))

/-- The bucket is one of the `nb` buckets (R251). -/
theorem azimuthBucket_lt (dx : Int) (hx : Nat) {nb : Nat} (h : 1 ≤ nb) : azimuthBucket dx hx nb < nb :=
  (Nat.min_le_right ..).trans_lt (by omega)

/-- The wrapped cursor lies below `length` (R145, R147). -/
theorem wrapCursor_lt {p length loopLength : Nat} (hpos : 0 < loopLength) (hle : loopLength ≤ length) :
    wrapCursor p length loopLength < length := by
  have hlt : p - length < loopLength * ((p - length) / loopLength + 1) := Nat.lt_mul_div_succ _ hpos
  rw [Nat.mul_comm] at hlt
  unfold wrapCursor
  omega

theorem clampStart_lt {startPos length : Word} (h : length ≠ 0) :
    (clampStart startPos length).toNat < length.toNat := by
  unfold clampStart
  split <;> bv_omega

theorem clampLoop_le (loopLength length : Word) : (clampLoop loopLength length).toNat ≤ length.toNat := by
  unfold clampLoop
  split <;> bv_omega

/-- A 20-bit sample count fits the integer part of UQ20.12 (R13). -/
theorem samplesToFixed_toNat {n : Nat} (h : n < 2 ^ 20) : (samplesToFixed n).toNat = n * 2 ^ 12 :=
  Nat.mod_eq_of_lt (by omega)

theorem extentOf_pos (v : Half16) : 1 ≤ (extentOf v).toNat := by
  unfold extentOf
  split <;> bv_omega

theorem bucketCountOf_toNat (b : Byte) : (bucketCountOf b).toNat = min (max b.toNat 1) 128 :=
  Nat.mod_eq_of_lt (by omega)

theorem bucketCountOf_bounds (b : Byte) : 1 ≤ (bucketCountOf b).toNat ∧ (bucketCountOf b).toNat ≤ 128 := by
  rw [bucketCountOf_toNat]
  omega

end Machine

namespace Safety

open Machine

/-! ### Voice records (R24 to R29, R193, R194) -/

theorem voiceOk_reset : VoiceOk Voice.reset := by decide

/-- What `Trigger` stores is sound: the cursor and the loop are clamped to the sample (R120). -/
theorem voiceOk_triggered {base startPos length loopLength incr : Word} {vol pl pr : Gain} (hlen : length ≠ 0)
    (hvol : vol.toNat ≤ 64) (hpl : pl.toNat ≤ 64) (hpr : pr.toNat ≤ 64) :
    VoiceOk (triggered base startPos length loopLength incr vol pl pr) :=
  ⟨hvol, hpl, hpr, clampLoop_le .., fun _ => ⟨clampStart_lt hlen, incrementOf_pos incr⟩, nofun, nofun⟩

theorem voiceOk_withGains {V : Voice} {vol pl pr : Gain} (hV : VoiceOk V) (hvol : vol.toNat ≤ 64)
    (hpl : pl.toNat ≤ 64) (hpr : pr.toNat ≤ 64) :
    VoiceOk { V with volume := vol, panLeft := pl, panRight := pr } := by
  obtain ⟨-, -, -, hloop, hcursor, hdecay, hsustain⟩ := hV
  exact ⟨hvol, hpl, hpr, hloop, hcursor, hdecay, hsustain⟩

theorem voiceOk_withIncrement {V : Voice} (incr : Word) (hV : VoiceOk V) :
    VoiceOk { V with increment := incrementOf incr } := by
  obtain ⟨hvol, hpl, hpr, hloop, hcursor, hdecay, hsustain⟩ := hV
  exact ⟨hvol, hpl, hpr, hloop, fun ha => ⟨(hcursor ha).1, incrementOf_pos incr⟩, hdecay, hsustain⟩

theorem voiceOk_inactive {V : Voice} (hV : VoiceOk V) : VoiceOk { V with active := false } := by
  obtain ⟨hvol, hpl, hpr, hloop, -, hdecay, hsustain⟩ := hV
  exact ⟨hvol, hpl, hpr, hloop, nofun, hdecay, hsustain⟩

/-- In Release the level is free (R195). -/
theorem voiceOk_released {V : Voice} (hV : VoiceOk V) : VoiceOk (released V) := by
  obtain ⟨hvol, hpl, hpr, hloop, hcursor, -, -⟩ := hV
  exact ⟨hvol, hpl, hpr, hloop, hcursor, nofun, nofun⟩

theorem voiceOk_stopped {V : Voice} (hV : VoiceOk V) : VoiceOk (stopped V) := by
  unfold stopped
  split
  · exact voiceOk_released hV
  · exact voiceOk_inactive hV

/-- What `NOTEON` stores is sound: the loop is what the clamped start leaves of the sample (R200). -/
theorem voiceOk_noteStarted (c : Config.Consts) {I : Instrument} (key vel : Byte) (hI : I.nsamples ≠ 0) :
    VoiceOk (noteStarted c I key vel) := by
  have hlt : I.nsamples.toNat < 2 ^ 20 := I.nsamples.isLt
  have hpos : 0 < I.nsamples.toNat := by bv_omega
  have hlen : (samplesToFixed I.nsamples.toNat).toNat = I.nsamples.toNat * 2 ^ 12 := samplesToFixed_toNat hlt
  have hloop : (samplesToFixed (I.nsamples.toNat - min I.loopStart.toNat I.nsamples.toNat)).toNat =
      (I.nsamples.toNat - min I.loopStart.toNat I.nsamples.toNat) * 2 ^ 12 := samplesToFixed_toNat (by omega)
  refine ⟨gainOf_le vel, by simp [noteStarted], by simp [noteStarted], ?_, fun _ => ⟨?_, incrementOf_pos _⟩,
    nofun, nofun⟩
  · simp only [noteStarted, hlen, hloop]
    exact Nat.mul_le_mul_right _ (Nat.sub_le ..)
  · simp only [noteStarted, hlen]
    exact Nat.mul_pos hpos (by decide)

/-! ### A voice's turn in the frame (R161) -/

/-- A voice with another level and phase, still active only if it was, needs only the level's side checked. -/
theorem voiceOk_withEnvelope {V : Voice} {a : Bool} {lvl : Byte} {ph : Phase} (hV : VoiceOk V)
    (ha : a = true → V.active = true) (hdecay : ph = .decay → V.sustainLevel.toNat ≤ lvl.toNat)
    (hsustain : ph = .sustain → lvl = V.sustainLevel) :
    VoiceOk { V with active := a, level := lvl, phase := ph } := by
  obtain ⟨hvol, hpl, hpr, hloop, hcursor, -, -⟩ := hV
  exact ⟨hvol, hpl, hpr, hloop, fun h => hcursor (ha h), hdecay, hsustain⟩

/-- Attack ends at level 255, above every `sustainLevel` (R192). -/
theorem voiceOk_attackTick {V : Voice} (hV : VoiceOk V) (hp : V.phase = .attack) : VoiceOk (attackTick V) := by
  have hmax : VoiceOk { V with level := 255, phase := .decay } :=
    voiceOk_withEnvelope hV id (fun _ => Nat.le_of_lt_succ V.sustainLevel.isLt) nofun
  simp only [attackTick]
  split
  · exact hmax
  · split
    · exact hmax
    · exact voiceOk_withEnvelope hV id (by simp [hp]) (by simp [hp])

/-- Decay stays above `sustainLevel` or ends on it (R193). -/
theorem voiceOk_decayTick {V : Voice} (hV : VoiceOk V) (hp : V.phase = .decay) : VoiceOk (decayTick V) := by
  have ⟨_, _, _, _, _, hdecay, _⟩ := hV
  have habove : V.sustainLevel.toNat ≤ V.level.toNat := hdecay hp
  have hend : VoiceOk { V with level := V.sustainLevel, phase := .sustain } :=
    voiceOk_withEnvelope hV id nofun fun _ => rfl
  simp only [decayTick]
  split
  · exact hend
  · split
    · rename_i hle
      exact voiceOk_withEnvelope hV id nofun fun _ => BitVec.eq_of_toNat_eq (Nat.le_antisymm hle habove)
    · split
      · exact hend
      · refine voiceOk_withEnvelope hV id (fun _ => ?_) (by simp [hp])
        have := V.level.isLt
        rw [BitVec.toNat_ofNat, Nat.mod_eq_of_lt (by omega)]
        omega

theorem voiceOk_releaseTick {V : Voice} (hV : VoiceOk V) (hp : V.phase = .release) : VoiceOk (releaseTick V) := by
  unfold releaseTick
  split
  · exact voiceOk_withEnvelope hV nofun (by simp [hp]) (by simp [hp])
  · exact voiceOk_withEnvelope hV id (by simp [hp]) (by simp [hp])

theorem voiceOk_envTick {V : Voice} (hV : VoiceOk V) : VoiceOk (envTick V) := by
  unfold envTick
  split
  · exact voiceOk_attackTick hV ‹_›
  · exact voiceOk_decayTick hV ‹_›
  · exact hV
  · exact voiceOk_releaseTick hV ‹_›

theorem voiceOk_turnStart {V : Voice} (hV : VoiceOk V) : VoiceOk (turnStart V) := by
  unfold turnStart
  split
  · exact voiceOk_envTick hV
  · exact hV

/-- A cursor that comes to lie inside the extent keeps a voice sound. -/
theorem voiceOk_withPosition {V : Voice} {n : Nat} (hV : VoiceOk V) (hn : n < V.length.toNat) :
    VoiceOk { V with position := BitVec.ofNat 32 n } := by
  obtain ⟨hvol, hpl, hpr, hloop, hcursor, hdecay, hsustain⟩ := hV
  exact ⟨hvol, hpl, hpr, hloop, fun ha => ⟨(toNat_ofNat_le ..).trans_lt hn, (hcursor ha).2⟩, hdecay, hsustain⟩

/-- `Advance` leaves the cursor inside the extent, or the voice inactive (R145, R148). -/
theorem voiceOk_advance {V : Voice} (hV : VoiceOk V) : VoiceOk (advance V) := by
  have ⟨hvol, hpl, hpr, hloop, _, hdecay, hsustain⟩ := hV
  simp only [advance]
  split
  · exact voiceOk_withPosition hV ‹_›
  · split
    · exact ⟨hvol, hpl, hpr, hloop, nofun, hdecay, hsustain⟩
    · rename_i hne
      exact voiceOk_withPosition hV (wrapCursor_lt (by bv_omega) hloop)

theorem voiceOk_playSamples (m : List Host.Cell) (c : Ctrl) (g : Nat) : ∀ (k : Nat) {V : Voice}, VoiceOk V →
    VoiceOk (playSamples m c g k V).1
  | 0, _, hV => hV
  | k + 1, V, hV => by
    rw [playSamples]
    split
    · exact voiceOk_playSamples m c g k (voiceOk_advance hV)
    · exact hV

theorem voiceOk_voiceTurn (m : List Host.Cell) (c : Ctrl) (spf : Nat) {V : Voice} (hV : VoiceOk V) :
    VoiceOk (voiceTurn m c spf V).1 :=
  voiceOk_playSamples m c _ spf (voiceOk_turnStart hV)

/-! ### The voice table -/

/-- Every voice of the state is sound. -/
def VoicesOk (s : State) : Prop := ∀ V ∈ s.voices, VoiceOk V

theorem voicesOk_modifyVoice {s : State} (v : Nat) {f : Voice → Voice} (hs : VoicesOk s)
    (hf : ∀ V, VoiceOk V → VoiceOk (f V)) : VoicesOk (s.modifyVoice v f) := by
  intro V hV
  obtain hV | ⟨W, hW, rfl⟩ := mem_modify hV
  · exact hs V hV
  · exact hf W (hs W hW)

section Micro

variable {s : State} {vol pl pr : Gain}

theorem voicesOk_trigger (v : Nat) (base startPos length loopLength incr : Word) (hs : VoicesOk s)
    (hvol : vol.toNat ≤ 64) (hpl : pl.toNat ≤ 64) (hpr : pr.toNat ≤ 64) :
    VoicesOk (trigger v base startPos length loopLength incr vol pl pr s) := by
  unfold trigger
  split
  · exact hs
  · split
    · exact hs
    · exact voicesOk_modifyVoice v hs fun _ _ => voiceOk_triggered ‹_› hvol hpl hpr

theorem voicesOk_setGains (v : Nat) (hs : VoicesOk s) (hvol : vol.toNat ≤ 64) (hpl : pl.toNat ≤ 64)
    (hpr : pr.toNat ≤ 64) : VoicesOk (setGains v vol pl pr s) := by
  unfold setGains
  split
  · exact hs
  · exact voicesOk_modifyVoice v hs fun _ hV => voiceOk_withGains hV hvol hpl hpr

theorem voicesOk_setRate (v : Nat) (incr : Word) (hs : VoicesOk s) : VoicesOk (setRate v incr s) := by
  unfold setRate
  split
  · exact hs
  · exact voicesOk_modifyVoice v hs fun _ hV => voiceOk_withIncrement incr hV

/-- Synthetic mode writes its pair through `Trigger`, or `SetGains` and `SetRate` (R247). -/
theorem voicesOk_synthetic (S : Source) (flip : Bool) (hs : VoicesOk s) (hvol : vol.toNat ≤ 64) (hpl : pl.toNat ≤ 64)
    (hpr : pr.toNat ≤ 64) : VoicesOk (synthetic S vol pl pr flip s) := by
  simp only [synthetic]
  split
  · exact voicesOk_trigger _ _ _ _ _ _ hs hvol hpl hpr
  · exact voicesOk_setRate _ _ (voicesOk_setGains _ hs hvol hpl hpr)

/-- LUT mode writes its pair through `Trigger` or `SetGains`, hard left and hard right (R250). -/
theorem voicesOk_lookup (k : Nat) (S : Source) (dx : Int) (flip : Bool) (hs : VoicesOk s) (hvol : vol.toNat ≤ 64) :
    VoicesOk (lookup k S dx vol flip s) := by
  have hfull : (64 : Gain).toNat ≤ 64 := by decide
  have hzero : (0 : Gain).toNat ≤ 64 := by decide
  simp only [lookup]
  split
  · split
    · exact hs
    · exact voicesOk_trigger _ _ _ _ _ _ (voicesOk_trigger _ _ _ _ _ _ hs hvol hfull hzero) hvol hzero hfull
  · exact voicesOk_setGains _ (voicesOk_setGains _ hs hvol hfull hzero) hvol hzero hfull

end Micro

/-! ### Source records (R42, R43) -/

/-- Every source of the state is sound. -/
def SourcesOk (s : State) : Prop := ∀ S ∈ s.sources, SourceOk S

theorem sourceOk_reset : SourceOk Source.reset := by decide

theorem sourceOk_moved {S : Source} (x y : Half16) (hS : SourceOk S) : SourceOk (moved S x y) := hS

theorem sourceOk_withBucket {S : Source} {bk : Nat} (hS : SourceOk S) (hbk : bk < 128) :
    SourceOk { S with bucket := BitVec.ofNat 8 bk } := by
  obtain ⟨hhx, hhy, hvol, hnb, hnb', -⟩ := hS
  exact ⟨hhx, hhy, hvol, hnb, hnb', .inl ((toNat_ofNat_le ..).trans_lt hbk)⟩

/-- A register write stores the restricted fields clamped: the half-extents of word 3, `maxVol` of word 5 and the
bucket count of word 14. Every other word leaves them as they are (R273). -/
theorem sourceOk_writeSource {S : Source} (k : Nat) (value : Word) (hS : SourceOk S) :
    SourceOk (writeSource k value S) := by
  have ⟨hhx, hhy, hvol, hnb, hnb', hbk⟩ := hS
  unfold writeSource
  split
  case h_4 => exact ⟨extentOf_pos _, extentOf_pos _, hvol, hnb, hnb', hbk⟩
  case h_6 => exact ⟨hhx, hhy, gainOf_le _, hnb, hnb', hbk⟩
  case h_15 =>
    obtain ⟨hcount, hcount'⟩ := bucketCountOf_bounds (lowByte value)
    exact ⟨hhx, hhy, hvol, hcount, hcount', hbk⟩
  all_goals exact hS

/-- The stored volume of a position is a legal gain (R242). -/
theorem positionVolume_le {S : Source} (x y : Half16) (hS : SourceOk S) : (positionVolume S x y).toNat ≤ 64 := by
  obtain ⟨-, -, hvol, -⟩ := hS
  exact gain_ofNat_le ((Nat.min_le_left ..).trans ((axisVolume_le ..).trans hvol))

/-! ### Commands -/

/-- `UPDPOS` keeps the voices sound: its volume and pans are legal gains (R241, R242). -/
theorem voicesOk_updpos {slot : Byte} {x y : Half16} {s t : State} (hs : VoicesOk s)
    (hsrc : SourcesOk s) (h : exec (.updpos slot x y) s = .next t) : VoicesOk t := by
  simp only [exec, execUpdpos] at h
  split at h
  · cases h; exact hs
  · rename_i S hS
    have hSok : SourceOk S := hsrc S (List.mem_of_getElem? hS)
    have hvol := positionVolume_le x y hSok
    obtain ⟨hhx, -⟩ := hSok
    split at h
    · split at h <;> cases h
      · exact voicesOk_lookup _ _ _ _ hs hvol
      · exact voicesOk_synthetic _ _ hs hvol (gain_ofNat_le (panLeftOf_le ..)) (gain_ofNat_le (panRightOf_le _ hhx))
    · cases h; exact hs

theorem voicesOk_mixframe {s t : State} (hs : VoicesOk s) (h : exec .mixframe s = .next t) : VoicesOk t := by
  obtain ⟨b, rfl⟩ := mix_next h
  intro V hV
  obtain ⟨W, hW, rfl⟩ := List.mem_map.mp hV
  exact voiceOk_voiceTurn _ _ _ (hs W hW)

theorem voicesOk_noteon {slot instr key vel : Byte} {s t : State} (hs : VoicesOk s)
    (h : exec (.noteon slot instr key vel) s = .next t) : VoicesOk t := by
  simp only [exec, execNoteon] at h
  split at h
  · cases h; exact hs
  · split at h
    · cases h; exact hs
    · split at h <;> cases h
      · exact hs
      · exact voicesOk_modifyVoice _ hs fun _ _ => voiceOk_noteStarted _ _ _ ‹_›

theorem voicesOk_wrreg {a : Half16} {v : Word} {s t : State} (hs : VoicesOk s)
    (h : exec (.wrreg a v) s = .next t) : VoicesOk t := by
  obtain ⟨c, rfl⟩ | ⟨k, n, rfl⟩ | ⟨k, n, rfl⟩ | ⟨k, n, rfl⟩ | rfl := wr_next h <;> exact hs

/-- Every command keeps the voices sound; `UPDPOS` needs sound sources for it. -/
theorem voicesOk_exec {i : Instr} {s t : State} (hs : VoicesOk s) (hsrc : SourcesOk s)
    (h : exec i s = .next t) : VoicesOk t := by
  cases i with
  | trig =>
    simp only [exec, execTrig] at h
    split at h <;> cases h
    · exact voicesOk_trigger _ _ _ _ _ _ hs (gainOf_le _) (gainOf_le _) (gainOf_le _)
    · exact hs
  | stop =>
    simp only [exec, execStop] at h
    split at h <;> cases h
    · exact hs
    · exact voicesOk_modifyVoice _ hs fun _ => voiceOk_stopped
  | setgain => cases h; exact voicesOk_setGains _ hs (gainOf_le _) (gainOf_le _) (gainOf_le _)
  | setrate => cases h; exact voicesOk_setRate _ _ hs
  | noteon => exact voicesOk_noteon hs h
  | noteoff =>
    simp only [exec, execNoteoff] at h
    split at h <;> cases h
    · exact hs
    · exact voicesOk_modifyVoice _ hs fun _ => voiceOk_released
  | updpos => exact voicesOk_updpos hs hsrc h
  | mixframe => exact voicesOk_mixframe hs h
  | wrreg => exact voicesOk_wrreg hs h

/-- Every command keeps the sources sound: `UPDPOS` stores a bucket in range, `WRREG` clamps. -/
theorem sourcesOk_exec {i : Instr} {s t : State} (hs : SourcesOk s) (h : exec i s = .next t) :
    SourcesOk t := by
  cases i with
  | trig | stop | setgain | setrate | noteon | noteoff =>
    obtain ⟨vs, rfl, -⟩ := voices_next h nofun nofun nofun
    exact hs
  | updpos =>
    obtain rfl | ⟨S, vs, T, hS, -, rfl, -, hT⟩ := upd_next h
    · exact hs
    · have hSok : SourceOk S := hs S (List.mem_of_getElem? hS)
      have ⟨_, _, _, hnb, hnb', _⟩ := hSok
      intro U hU
      obtain hU | rfl := List.mem_or_eq_of_mem_set hU
      · exact hs U hU
      · obtain rfl | rfl := hT
        · exact sourceOk_moved _ _ hSok
        · exact sourceOk_withBucket (sourceOk_moved _ _ hSok) ((azimuthBucket_lt _ _ hnb).trans_le hnb')
  | mixframe =>
    obtain ⟨b, rfl⟩ := mix_next h
    exact hs
  | wrreg =>
    obtain ⟨c, rfl⟩ | ⟨k, n, rfl⟩ | ⟨k, n, rfl⟩ | ⟨k, n, rfl⟩ | rfl := wr_next h
    · exact hs
    · exact hs
    · intro S hS
      obtain hS | ⟨T, hT, rfl⟩ := mem_modify hS
      · exact hs S hS
      · exact sourceOk_writeSource _ _ (hs T hT)
    · exact hs
    · exact hs

/-- `MIXFRAME` stores one canonical frame below `4 x SPF` (R39, R65, R160). -/
theorem bufferOk_mixframe {s t : State} (hs : BufferOk s.consts.spf s.buffer) (h : exec .mixframe s = .next t) :
    BufferOk t.consts.spf t.buffer := by
  obtain ⟨hwf, hlt⟩ := hs
  cases h
  refine ⟨storeFrame_wf _ _ _ _ hwf, fun c hc => ?_⟩
  obtain hc | hc := mem_storeFrame _ _ _ (accumulate_length (frameTurns_length s)) hc
  · exact hlt c hc
  · exact hc

theorem bufferOk_exec {i : Instr} {s t : State} (hs : BufferOk s.consts.spf s.buffer) (h : exec i s = .next t) :
    BufferOk t.consts.spf t.buffer := by
  by_cases hi : i = .mixframe
  · exact bufferOk_mixframe hs (hi ▸ h)
  · obtain ⟨hconsts, -⟩ := sameInstance_of_exec h
    rw [hconsts, exec_buffer hi h]
    exact hs

/-! ### The assembler (R48) -/

theorem openPacketOk_nil : OpenPacketOk [] := ⟨rfl, Nat.zero_le _⟩

/-- No command has more than six operand words (R93). -/
theorem operandCount_le_six {opc : Byte} {k : Nat} (h : operandCount opc = some k) : k ≤ 6 := by
  unfold operandCount at h
  split at h <;> cases h <;> decide

/-- A packet that is still open holds at most six words, for the longest has seven (R48, R90). -/
theorem openPacketOk_of_incomplete {ws : List Word} (h : decode ws = .incomplete) : OpenPacketOk ws := by
  refine ⟨h, ?_⟩
  cases ws with
  | nil => exact Nat.zero_le _
  | cons w ws =>
    obtain ⟨-, he⟩ | ⟨k, hk, hlt, -⟩ | ⟨k, i, -, -, he⟩ := decode_class w ws
    · simp [he] at h
    · exact hlt.trans_le (operandCount_le_six hk)
    · simp [he] at h

/-! ### The invariant over each thing a step can do -/

/-- The parameters and the sample memory never change, so an invariant is kept by keeping the other parts. -/
theorem Inv.of_sameInstance {s t : State} (hs : Inv s) (hst : SameInstance s t) (hvoices : VoicesOk t)
    (hbuffer : BufferOk t.consts.spf t.buffer) (hsources : SourcesOk t)
    (hopen : OpenPacketOk t.openPacket) : Inv t := by
  obtain ⟨hconsts, hsamples, hnv, hni, hns, hnl⟩ := hst
  exact
    { constsOk := hconsts ▸ hs.constsOk
      sizesOk := by rw [hnv, hni, hns, hnl]; exact hs.sizesOk
      samplesOk := hsamples ▸ hs.samplesOk
      voicesOk := hvoices
      bufferOk := hbuffer
      sourcesOk := hsources
      openPacketOk := hopen }

variable {s : State}

theorem Inv.setInputs (hs : Inv s) (is : List Input) : Inv (s.setInputs is) :=
  hs.of_sameInstance (sameInstance_setInputs s is) hs.voicesOk hs.bufferOk hs.sourcesOk hs.openPacketOk

theorem Inv.setOpenPacket (hs : Inv s) {ws : List Word} (hws : OpenPacketOk ws) : Inv (s.setOpenPacket ws) :=
  hs.of_sameInstance (sameInstance_setOpenPacket s ws) hs.voicesOk hs.bufferOk hs.sourcesOk hws

theorem Inv.packetTaken (hs : Inv s) (rest : List Input) : Inv (packetTaken s rest) :=
  (hs.setOpenPacket openPacketOk_nil).setInputs rest

theorem Inv.tickEvent (hs : Inv s) : Inv (tickEvent s) :=
  hs.of_sameInstance (sameInstance_tickEvent s) hs.voicesOk hs.bufferOk hs.sourcesOk hs.openPacketOk

/-- The reset input fills every table with sound reset records (R320, R321). -/
theorem Inv.resetInput (hs : Inv s) : Inv (resetInput s) :=
  hs.of_sameInstance (sameInstance_resetInput s)
    (fun _ hV => (List.eq_of_mem_replicate hV) ▸ voiceOk_reset)
    ⟨resetInput_buffer_wf s, nofun⟩
    (fun _ hS => (List.eq_of_mem_replicate hS) ▸ sourceOk_reset)
    openPacketOk_nil

theorem Inv.exec (hs : Inv s) {i : Instr} {t : State} (h : exec i s = .next t) : Inv t :=
  hs.of_sameInstance (sameInstance_of_exec h) (voicesOk_exec hs.voicesOk hs.sourcesOk h) (bufferOk_exec hs.bufferOk h)
    (sourcesOk_exec hs.sourcesOk h) (exec_openPacket h ▸ hs.openPacketOk)

end Safety

namespace Proofs

open Machine Safety

/-- Settles O59: over the seven things a step can do. -/
theorem stepKeepsSoundness : Obligations.StepKeepsSoundness := by
  intro s t hs h
  obtain ⟨rfl, -⟩ | ⟨rest, -, rfl⟩ | ⟨w, rest, -, rfl⟩ | ⟨rest, -, rfl⟩ | ⟨rest, -, rfl⟩ |
    ⟨held, rest, hwait, rfl⟩ | ⟨i, rest, -, hexec⟩ := step_cases h
  · exact hs
  · exact (hs.setInputs _).tickEvent
  · exact (hs.setInputs _).tickEvent
  · exact (hs.setInputs _).resetInput
  · exact hs.packetTaken rest
  · obtain ⟨hopen, -⟩ := hs.openPacketOk
    obtain ⟨hheld, -⟩ := fetchPacket_waiting hopen hwait
    exact (hs.setOpenPacket (openPacketOk_of_incomplete hheld)).setInputs rest
  · exact (hs.packetTaken rest).exec hexec

/-- Settles O16: what a command writes is none of these. -/
theorem noCommandFlipsLiveOrPresents : Obligations.NoCommandFlipsLiveOrPresents := by
  intro i s t h
  obtain ⟨vs, c, b, is, ss, es, rfl, -⟩ := exec_writes h
  exact ⟨rfl, rfl, rfl, rfl, rfl, rfl⟩

/-- Settles O17: the memory is left as it is, and so is every byte. -/
theorem onlyMixframeWritesBuffer : Obligations.OnlyMixframeWritesBuffer := by
  intro i s t hne h a
  rw [exec_buffer hne h]

/-- Settles O52: address 0 is `CTRL`, and its write is the two bits. -/
theorem wrregWritesCtrl : Obligations.WrregWritesCtrl := fun s v =>
  congrArg Host.Outcome.next (writeRegister_zero v s)

end Proofs

end Sys2Proof
end

section
/-! Proofs of the statements on the memories (spec/20_memory.md): the register space (R68, R271, R273), the sample
memory as a fetch reads it (R62, R63, R141 to R143), and the hand-off of a mixed frame to the sink (R75, R76). -/

namespace Sys2Proof

namespace Machine

open Safety

/-! ### The register space (R68, R271) -/

/-- Two source records hold the same configuration registers: they differ in the state of R43 at most. -/
def SameRegisters (S T : Source) : Prop :=
  T = { S with x := T.x, y := T.y, facing := T.facing, bucket := T.bucket }

/-- Two source records hold the same state of R43. -/
def SameSourceState (S T : Source) : Prop := T.x = S.x ∧ T.y = S.y ∧ T.facing = S.facing ∧ T.bucket = S.bucket

theorem SameRegisters.refl (S : Source) : SameRegisters S S := rfl

theorem SameSourceState.refl (S : Source) : SameSourceState S S := ⟨rfl, rfl, rfl, rfl⟩

theorem sameRegisters_moved (S : Source) (x y : Half16) : SameRegisters S (moved S x y) := rfl

theorem sameRegisters_movedToBucket (S : Source) (x y : Half16) (bk : Byte) :
    SameRegisters S { moved S x y with bucket := bk } := rfl

/-- Every word of a source record is a register; the state of R43 stands in none of them (R273). -/
theorem sameSourceState_writeSource (n : Nat) (v : Word) (S : Source) : SameSourceState S (writeSource n v S) := by
  unfold writeSource
  split <;> exact .refl S

/-- No command but `WRREG` writes `CTRL`, the instrument table or the spatialization table. -/
theorem exec_registerTables {i : Instr} {s t : State} (hi : ∀ a v, i ≠ .wrreg a v) (h : exec i s = .next t) :
    t.ctrl = s.ctrl ∧ t.instruments = s.instruments ∧ t.lut = s.lut := by
  cases i with
  | trig | stop | setgain | setrate | noteon | noteoff =>
    obtain ⟨vs, rfl, -⟩ := voices_next h nofun nofun nofun
    exact ⟨rfl, rfl, rfl⟩
  | updpos =>
    obtain rfl | ⟨S, vs, T, -, -, rfl, -⟩ := upd_next h <;> exact ⟨rfl, rfl, rfl⟩
  | mixframe =>
    obtain ⟨b, rfl⟩ := mix_next h
    exact ⟨rfl, rfl, rfl⟩
  | wrreg => exact absurd rfl (hi _ _)

/-- No command but `UPDPOS` and `WRREG` writes the source table. -/
theorem exec_sources {i : Instr} {s t : State} (hi : ∀ a v, i ≠ .wrreg a v) (hu : ∀ v x y, i ≠ .updpos v x y)
    (h : exec i s = .next t) : t.sources = s.sources := by
  by_cases hm : i = .mixframe
  · obtain ⟨b, rfl⟩ := mix_next (hm ▸ h)
    rfl
  · obtain ⟨vs, rfl, -⟩ := voices_next h hi hu hm
    rfl

/-- A record of a table with one record replaced is the old one there, or the new one at its own place. -/
theorem getElem?_set_cases {α : Type} {l : List α} {i k : Nat} {x y : α} (hy : (l.set i x)[k]? = some y) :
    l[k]? = some y ∨ (i = k ∧ y = x) := by
  rw [List.getElem?_set] at hy
  split at hy
  · split at hy <;> cases hy
    exact .inr ⟨‹_›, rfl⟩
  · exact .inl hy

/-- `UPDPOS` writes the state of the source it names, and no register of any (R43, R240). -/
theorem updpos_sameRegisters {slot : Byte} {x y : Half16} {s t : State} {k : Nat} {S T : Source}
    (h : exec (.updpos slot x y) s = .next t) (hS : s.sources[k]? = some S) (hT : t.sources[k]? = some T) :
    SameRegisters S T := by
  obtain rfl | ⟨U, vs, U', hU, -, rfl, -, hU'⟩ := upd_next h
  · cases hS.symm.trans hT
    exact .refl S
  · obtain hold | ⟨rfl, rfl⟩ := getElem?_set_cases hT
    · cases hS.symm.trans hold
      exact .refl S
    · cases hS.symm.trans hU
      obtain rfl | rfl := hU'
      · exact sameRegisters_moved S x y
      · exact sameRegisters_movedToBucket S x y _

/-- A record of a modified table is the old one there, or the old one written. -/
theorem getElem?_modify_cases {α : Type} {l : List α} {i k : Nat} {f : α → α} {x y : α} (hx : l[k]? = some x)
    (hy : (l.modify i f)[k]? = some y) : y = x ∨ y = f x := by
  rw [List.getElem?_modify, hx] at hy
  split at hy <;> cases hy
  · exact .inr rfl
  · exact .inl rfl

/-- `WRREG` writes no voice, no buffer byte and no `live` (R271). -/
theorem wrreg_keepsOutput {a : Half16} {v : Word} {s t : State} (h : exec (.wrreg a v) s = .next t) :
    t.voices = s.voices ∧ t.live = s.live ∧ t.buffer = s.buffer := by
  obtain ⟨c, rfl⟩ | ⟨k, n, rfl⟩ | ⟨k, n, rfl⟩ | ⟨k, n, rfl⟩ | rfl := wr_next h <;> exact ⟨rfl, rfl, rfl⟩

/-- `WRREG` writes the state of no source (R43, R273). -/
theorem wrreg_sameSourceState {a : Half16} {v : Word} {s t : State} {k : Nat} {S T : Source}
    (h : exec (.wrreg a v) s = .next t) (hS : s.sources[k]? = some S) (hT : t.sources[k]? = some T) :
    SameSourceState S T := by
  have unwritten (hsrc : t.sources = s.sources) : SameSourceState S T := by
    cases hS.symm.trans (hsrc ▸ hT)
    exact .refl S
  obtain ⟨c, rfl⟩ | ⟨j, n, rfl⟩ | ⟨j, n, rfl⟩ | ⟨j, n, rfl⟩ | rfl := wr_next h
  · exact unwritten rfl
  · exact unwritten rfl
  · obtain rfl | rfl := getElem?_modify_cases hS hT
    · exact .refl T
    · exact sameSourceState_writeSource n v S
  · exact unwritten rfl
  · exact unwritten rfl

/-! ### The sample memory (R61, R62) -/

/-- Of a list by rising address, the byte of a populated address is the one listed (R61). -/
theorem sampleByte_of_mem {a : Word} {b : Byte} : ∀ {m : List Host.Cell},
    m.Pairwise (fun c d => c.1 < d.1) → (a.toNat, b) ∈ m → sampleByte m a = b
  | c :: m, hsorted, hmem => by
    obtain ⟨hbelow, hsorted⟩ := List.pairwise_cons.mp hsorted
    obtain rfl | hmem := List.mem_cons.mp hmem
    · exact sampleByte_listed m a b
    · have hne : a.toNat ≠ c.1 := (hbelow _ hmem).ne'
      rw [sampleByte, if_neg hne]
      exact sampleByte_of_mem hsorted hmem

/-! ### The blend (R142, R143) -/

theorem blend_zero (s0 s1 : Int) : blend s0 s1 0 = s0 := by simp [blend, asr]

theorem blend_self (x : Int) (f : Nat) : blend x x f = x := by simp [blend, asr]

/-- The blend is the weighted sum of the two samples, rounded down (R142). -/
theorem blend_eq_weighted (s0 s1 : Int) (f : Nat) : blend s0 s1 f = (s0 * (4096 - f) + s1 * f) / 4096 := by
  have hsum : s0 * (4096 - f) + s1 * f = (s1 - s0) * f + s0 * 4096 := by ring
  rw [hsum, Int.add_mul_ediv_right _ _ (by decide), Int.add_comm]
  rfl

/-- The blend lies between the two samples (R143): a weighted sum does, and rounding down keeps whole bounds. -/
theorem blend_bounds (s0 s1 : Int) {f : Nat} (hf : f < 4096) :
    min s0 s1 ≤ blend s0 s1 f ∧ blend s0 s1 f ≤ max s0 s1 := by
  have hf' : (0 : Int) ≤ 4096 - f := by omega
  have hlow0 := Int.mul_le_mul_of_nonneg_right (min_le_left s0 s1) hf'
  have hlow1 := Int.mul_le_mul_of_nonneg_right (min_le_right s0 s1) (Int.natCast_nonneg f)
  have hhigh0 := Int.mul_le_mul_of_nonneg_right (le_max_left s0 s1) hf'
  have hhigh1 := Int.mul_le_mul_of_nonneg_right (le_max_right s0 s1) (Int.natCast_nonneg f)
  rw [blend_eq_weighted]
  constructor
  · exact (Int.le_ediv_iff_mul_le (by decide)).mpr (by linarith)
  · exact Int.ediv_le_of_le_mul (by decide) (by linarith)

/-! ### The indices a fetch reads (R26, R63) -/

/-- The cursor of a sound active voice stands on one of its samples (R24, R26). -/
theorem sampleIndex_lt {V : Voice} (hV : VoiceOk V) (ha : V.active = true) : sampleIndex V < sampleCount V := by
  obtain ⟨-, -, -, -, hcursor, -⟩ := hV
  obtain ⟨hpos, -⟩ := hcursor ha
  unfold sampleIndex sampleCount
  omega

/-- The next index is one of the voice's samples too: after the final one it is 0 (R142). -/
theorem nextIndex_lt {V : Voice} (h : sampleIndex V < sampleCount V) : nextIndex V < sampleCount V := by
  unfold nextIndex
  split <;> omega

/-- A fetch of a sound active voice reads samples at indices of its extent only, so it depends on those alone. -/
theorem fetchSample_congr {m m' : List Host.Cell} {V : Voice} (interp : Bool) (hV : VoiceOk V)
    (ha : V.active = true) (h : ∀ i < sampleCount V, sampleAt m V i = sampleAt m' V i) :
    fetchSample m interp V = fetchSample m' interp V := by
  have hi : sampleIndex V < sampleCount V := sampleIndex_lt hV ha
  cases interp with
  | false => exact h _ hi
  | true =>
    change fetchInterpolated m V = fetchInterpolated m' V
    rw [fetchInterpolated, fetchInterpolated, h _ hi, h _ (nextIndex_lt hi)]

/-- With one sample index both reads of an interpolated fetch are of index 0 (R142). -/
theorem fetchInterpolated_of_one {m : List Host.Cell} {V : Voice} (hV : VoiceOk V) (ha : V.active = true)
    (hone : sampleCount V = 1) : fetchInterpolated m V = sampleRead m V.base := by
  have hi : sampleIndex V = 0 := Nat.lt_one_iff.mp (hone ▸ sampleIndex_lt hV ha)
  have hj : nextIndex V = 0 := Nat.lt_one_iff.mp (hone ▸ nextIndex_lt (sampleIndex_lt hV ha))
  rw [fetchInterpolated, hi, hj, blend_self, sampleAt, BitVec.add_zero]

/-! ### The frame that `MIXFRAME` stores (R161, R170, R171) -/

theorem contributing_frameTurns (s : State) : contributing (frameTurns s) = frameVoices s :=
  List.countP_map ..

/-- The accumulators of the frame hold the sums of the voices' turns (R161). -/
theorem accumulate_frameTurns {s : State} {i : Nat} (hi : i < s.consts.spf) :
    (accumulate s.consts.spf (frameTurns s)).getD i (0, 0) = (frameSum s false i, frameSum s true i) := by
  rw [accumulate_getD (frameTurns_length s) hi, frameTurns, List.map_map, List.map_map]
  rfl

/-- `MIXFRAME` leaves the frame of `s` in the fill half of the left channel (R161). -/
theorem mixframe_left {s t : State} {i : Nat} (hwf : Memory.wf s.buffer) (h : exec .mixframe s = .next t)
    (hi : i < s.consts.spf) :
    Memory.read t.buffer (outAddr s.consts.spf false (!s.live) i) = frameByte s false i := by
  cases h
  rw [State.setBuffer_buffer, storeFrame_left _ _ _ hwf (accumulate_length (frameTurns_length s)) hi,
    accumulate_frameTurns hi, contributing_frameTurns]
  rfl

/-- `MIXFRAME` leaves the frame of `s` in the fill half of the right channel, in stereo (R161). -/
theorem mixframe_right {s t : State} {i : Nat} (hwf : Memory.wf s.buffer) (h : exec .mixframe s = .next t)
    (hstereo : s.ctrl.stereo = true) (hi : i < s.consts.spf) :
    Memory.read t.buffer (outAddr s.consts.spf true (!s.live) i) = frameByte s true i := by
  cases h
  rw [State.setBuffer_buffer, hstereo, storeFrame_right _ _ hwf (accumulate_length (frameTurns_length s)) hi,
    accumulate_frameTurns hi, contributing_frameTurns]
  rfl

/-! ### The hand-off (R75, R76, R221) -/

/-- A header of `MIXFRAME` is its whole packet (R93). -/
theorem decode_mixframe {h : Word} (hop : opcOf h = 0x08) : decode [h] = .instr .mixframe [] := by
  rw [decode_cons, hop]
  rfl

/-- A step that takes a `TICK` is the swap (R221). -/
theorem step_of_tick {s : State} {rest : List Input} (hin : s.inputs = .tick :: rest) :
    step s = .next (tickEvent (s.setInputs rest)) := by
  simp only [step, takeInput, hin]

/-- The sink may read every byte of a half, from the base address of its channel on (R65, R67). -/
theorem sinkRead_half {s : State} {spf i : Nat} (hspf : s.consts.spf = spf) (hi : i < spf) (right half : Bool) :
    sinkRead s (outAddr spf right half 0 + i) = .ok (Memory.read s.buffer (outAddr spf right half i)) := by
  subst hspf
  rw [← outAddr_add, sinkRead, if_pos (outAddr_lt right half hi)]

end Machine

namespace Proofs

open Machine Safety

/-- Settles O18: the tables by the shape of each command, the source records by `UPDPOS` and `WRREG`. -/
theorem onlyWrregWritesRegisters : Obligations.OnlyWrregWritesRegisters := by
  refine ⟨fun i s t hi h => ?_, fun a v s t h => ?_⟩
  · obtain ⟨hctrl, hinstruments, hlut⟩ := exec_registerTables hi h
    refine ⟨hctrl, hinstruments, hlut, fun k S T hS hT => ?_⟩
    have unwritten (hu : ∀ v x y, i ≠ .updpos v x y) : T = S :=
      Option.some.inj (hT.symm.trans (exec_sources hi hu h ▸ hS))
    refine ⟨?_, unwritten⟩
    cases i with
    | updpos => exact updpos_sameRegisters h hS hT
    | _ => rw [unwritten nofun]
  · obtain ⟨hvoices, hlive, hbuffer⟩ := wrreg_keepsOutput h
    exact ⟨hvoices, hlive, hbuffer, fun k S T hS hT => wrreg_sameSourceState h hS hT⟩

/-- Settles O33: the two fetches are what their definitions read, the rest are the laws of the blend. -/
theorem interpolationBlends : Obligations.InterpolationBlends := by
  refine ⟨fun m a b ⟨hsorted, _⟩ hmem => congrArg BitVec.toInt (sampleByte_of_mem hsorted hmem), fun m V => rfl,
    fun m V => ⟨rfl, rfl⟩, fun s0 s1 f hf => ?_, by decide, by decide,
    fun m V ha hV hone => fetchInterpolated_of_one hV ha hone⟩
  obtain ⟨hlow, hhigh⟩ := blend_bounds s0 s1 hf
  exact ⟨blend_eq_weighted s0 s1 f, hlow, hhigh, blend_zero s0 s1⟩

/-- Settles O34: both indices a fetch reads lie in the extent. -/
theorem fetchReadsOnlyItsExtent : Obligations.FetchReadsOnlyItsExtent := by
  intro m m' interp V hV ha hagree
  exact fetchSample_congr interp hV ha fun i hi => congrArg BitVec.toInt (hagree i hi)

/-- A step that takes the header of a `MIXFRAME` mixes the frame of the state that has taken it (R14, R93). -/
theorem step_of_mixframe {s : State} {h : Word} {rest : List Input} (hopen : s.openPacket = []) (hop : opcOf h = 0x08)
    (hin : s.inputs = .word h :: rest) : step s = exec .mixframe (packetTaken s rest) :=
  stepRunsDecodedPacket s .mixframe [h] rest nofun (by rw [hopen]; exact decode_mixframe hop) hin

/-- Settles O43: the step of the `MIXFRAME` fills the half that the swap makes live and presents. -/
theorem tickHandsOffTheMixedFrame : Obligations.TickHandsOffTheMixedFrame := by
  intro s h rest hwf hopen hop hin
  obtain ⟨t, ht⟩ : ∃ t, exec .mixframe (packetTaken s (.tick :: rest)) = .next t := ⟨_, rfl⟩
  obtain ⟨hlive, hpresented, -, hinputs, hconsts, -⟩ := noCommandFlipsLiveOrPresents _ _ _ ht
  have hspf : t.consts.spf = s.consts.spf := congrArg Config.Consts.spf hconsts
  have hpresent : (tickEvent (t.setInputs rest)).presented =
      s.presented ++ [presentOfHalf s.consts.spf (!s.live)] := by
    simp [tickEvent, hlive, hpresented, hspf, packetTaken]
  refine ⟨t, tickEvent (t.setInputs rest), presentOfHalf s.consts.spf (!s.live),
    (step_of_mixframe hopen hop hin).trans ht, step_of_tick hinputs, hpresent, rfl, congrArg not hlive,
    fun i hi => ⟨?_, fun hstereo => ?_⟩⟩
  · have hbyte := mixframe_left (s := packetTaken s _) hwf ht hi
    exact (sinkRead_half hspf hi false _).trans (congrArg Except.ok hbyte)
  · have hbyte := mixframe_right (s := packetTaken s _) hwf ht hstereo hi
    exact (sinkRead_half hspf hi true _).trans (congrArg Except.ok hbyte)

end Proofs

end Sys2Proof
end

section
/-! Proofs of the statements on the encoding (spec/30_encoding.md): the decoder against the encoder (R90 to R93, R104),
ignored and reserved bits (R100), gain fields (R97), reserved opcodes and slots out of range (R98, R99), and the
command port while a packet is open (R95). -/

namespace Sys2Proof

/-! ### The decoder on a whole packet of each command (R92, R93) -/

section Packets

variable {h : Word}

theorem decode_trig (hop : opcOf h = 0x01) (w1 w2 w3 w4 w5 w6 : Word) (rest : List Word) :
    decode (h :: w1 :: w2 :: w3 :: w4 :: w5 :: w6 :: rest) =
      .instr (.trig (slotOf h) (presentOf h) w1 w2 w3 w4 w5 (byte0 w6) (byte1 w6) (byte2 w6)) rest := by
  rw [decode_cons, hop]; rfl

theorem decode_stop (hop : opcOf h = 0x02) (rest : List Word) :
    decode (h :: rest) = .instr (.stop (slotOf h)) rest := by
  rw [decode_cons, hop]; rfl

theorem decode_setgain (hop : opcOf h = 0x03) (w : Word) (rest : List Word) :
    decode (h :: w :: rest) = .instr (.setgain (slotOf h) (byte0 w) (byte1 w) (byte2 w)) rest := by
  rw [decode_cons, hop]; rfl

theorem decode_setrate (hop : opcOf h = 0x04) (w : Word) (rest : List Word) :
    decode (h :: w :: rest) = .instr (.setrate (slotOf h) w) rest := by
  rw [decode_cons, hop]; rfl

theorem decode_noteon (hop : opcOf h = 0x05) (w : Word) (rest : List Word) :
    decode (h :: w :: rest) = .instr (.noteon (slotOf h) (byte0 w) (byte1 w) (byte2 w)) rest := by
  rw [decode_cons, hop]; rfl

theorem decode_noteoff (hop : opcOf h = 0x06) (rest : List Word) :
    decode (h :: rest) = .instr (.noteoff (slotOf h)) rest := by
  rw [decode_cons, hop]; rfl

theorem decode_updpos (hop : opcOf h = 0x07) (w : Word) (rest : List Word) :
    decode (h :: w :: rest) = .instr (.updpos (slotOf h) (half0 w) (half1 w)) rest := by
  rw [decode_cons, hop]; rfl

theorem decode_mixframe_cons (hop : opcOf h = 0x08) (rest : List Word) :
    decode (h :: rest) = .instr .mixframe rest := by
  rw [decode_cons, hop]; rfl

theorem decode_wrreg (hop : opcOf h = 0x09) (w : Word) (rest : List Word) :
    decode (h :: w :: rest) = .instr (.wrreg (immOf h) w) rest := by
  rw [decode_cons, hop]; rfl

end Packets

/-- The decoder reads back what the encoder wrote: its header names the command, and each field is where the decoder
looks for it (R91 to R93). -/
theorem decode_encode (i : Instr) (rest : List Word) : decode (encode i ++ rest) = .instr i rest := by
  cases i with
  | trig slot present =>
    refine (decode_trig (opcOf_header ..) ..).trans ?_
    cases present <;> simp
  | stop => exact (decode_stop (opcOf_header ..) _).trans (by simp)
  | setgain => exact (decode_setgain (opcOf_header ..) ..).trans (by simp)
  | setrate => exact (decode_setrate (opcOf_header ..) ..).trans (by simp)
  | noteon => exact (decode_noteon (opcOf_header ..) ..).trans (by simp)
  | noteoff => exact (decode_noteoff (opcOf_header ..) _).trans (by simp)
  | updpos => exact (decode_updpos (opcOf_header ..) ..).trans (by simp)
  | mixframe => exact decode_mixframe_cons (opcOf_header ..) rest
  | wrreg => exact (decode_wrreg (opcOf_header ..) ..).trans (by simp)

/-! ### What a decoder's answer says of the words it read (R90, R93, R95, R98) -/

/-- A decoded command took its header and the operand words its opcode calls for; whatever words come after these, the
same command is decoded. -/
theorem decode_instr_packet {h : Word} {ws rest : List Word} {i : Instr} (hd : decode (h :: ws) = .instr i rest) :
    opcOf h = i.opcode ∧ ∃ ops, ws = ops ++ rest ∧ ops.length = i.operandWords ∧
      ∀ after, decode (h :: (ops ++ after)) = .instr i after := by
  have hopc {n : Nat} (hn : (opcOf h).toNat = n) : opcOf h = BitVec.ofNat 8 n := by
    rw [← hn, BitVec.ofNat_toNat, BitVec.setWidth_eq]
  rw [decode_cons] at hd
  split at hd
  case h_1 hn =>
    split at hd <;> cases hd
    exact ⟨hopc hn, [_, _, _, _, _, _], rfl, rfl, decode_trig (hopc hn) _ _ _ _ _ _⟩
  case h_2 hn => cases hd; exact ⟨hopc hn, [], rfl, rfl, decode_stop (hopc hn)⟩
  case h_3 hn => split at hd <;> cases hd; exact ⟨hopc hn, [_], rfl, rfl, decode_setgain (hopc hn) _⟩
  case h_4 hn => split at hd <;> cases hd; exact ⟨hopc hn, [_], rfl, rfl, decode_setrate (hopc hn) _⟩
  case h_5 hn => split at hd <;> cases hd; exact ⟨hopc hn, [_], rfl, rfl, decode_noteon (hopc hn) _⟩
  case h_6 hn => cases hd; exact ⟨hopc hn, [], rfl, rfl, decode_noteoff (hopc hn)⟩
  case h_7 hn => split at hd <;> cases hd; exact ⟨hopc hn, [_], rfl, rfl, decode_updpos (hopc hn) _⟩
  case h_8 hn => cases hd; exact ⟨hopc hn, [], rfl, rfl, decode_mixframe_cons (hopc hn)⟩
  case h_9 hn => split at hd <;> cases hd; exact ⟨hopc hn, [_], rfl, rfl, decode_wrreg (hopc hn) _⟩
  case h_10 => cases hd

/-- An opcode is reserved when it is 0x00 or 0x0A..0xFF (R98). -/
theorem operandCount_eq_none_iff (o : Byte) : operandCount o = none ↔ o = 0x00 ∨ 0x0A ≤ o.toNat := by
  have hzero : o = 0x00 ↔ o.toNat = 0 := BitVec.toNat_inj.symm
  rw [hzero]
  unfold operandCount
  split
  case h_10 =>
    simp only [imp_false] at *
    exact iff_of_true trivial (by omega)
  all_goals exact iff_of_false nofun (by omega)

/-- A header with a reserved opcode is a packet of its own (R98). -/
theorem decode_reserved {h : Word} (hnone : operandCount (opcOf h) = none) (rest : List Word) :
    decode (h :: rest) = .reserved (opcOf h) rest := by
  obtain ⟨-, he⟩ | ⟨k, hk, -⟩ | ⟨k, i, hk, -⟩ := decode_class h rest
  · exact he
  · simp [hnone] at hk
  · simp [hnone] at hk

/-- A list that is a whole packet is well-formed as one. -/
theorem packetWf_of_decode {h : Word} {ops : List Word} {i : Instr} (hd : decode (h :: ops) = .instr i []) :
    PacketWf (h :: ops) = true := by
  have hk : operandCount (h.extractLsb' 24 8) = some ops.length := operandCount_of_decode_instr_nil hd
  simp [PacketWf, packetFlaw, hk]

/-- The decoder answers a reserved opcode on its header alone (R98). -/
theorem operandCount_of_decode_reserved {h : Word} {ws rest : List Word} {o : Byte}
    (hd : decode (h :: ws) = .reserved o rest) : ws = rest ∧ opcOf h = o ∧ operandCount o = none := by
  obtain ⟨hnone, he⟩ | ⟨k, -, -, he⟩ | ⟨k, i, -, -, he⟩ := decode_class h ws
  · cases he.symm.trans hd
    exact ⟨rfl, rfl, hnone⟩
  · cases he.symm.trans hd
  · cases he.symm.trans hd

/-- The decoder waits only while operand words are missing (R95). -/
theorem operandCount_of_decode_incomplete {h : Word} {ws : List Word} (hd : decode (h :: ws) = .incomplete) :
    ∃ k, operandCount (opcOf h) = some k ∧ ws.length < k := by
  obtain ⟨-, he⟩ | ⟨k, hk, hlt, -⟩ | ⟨k, i, -, -, he⟩ := decode_class h ws
  · cases he.symm.trans hd
  · exact ⟨k, hk, hlt⟩
  · cases he.symm.trans hd

/-- Every beginning of an open packet is an open packet (R95). -/
theorem decode_incomplete_of_append {p q : List Word} (hd : decode (p ++ q) = .incomplete) :
    decode p = .incomplete := by
  cases p with
  | nil => rfl
  | cons h ops =>
    obtain ⟨k, hk, hlt⟩ := operandCount_of_decode_incomplete (ws := ops ++ q) hd
    rw [List.length_append] at hlt
    exact decode_incomplete_of_lt hk (by omega)

/-! ### Ignored bits of header and operand words (R91, R92) -/

/-- The decoder reads `SLOT` of the slot commands, `P` of `TRIG` and `IMM` of `WRREG`, and no more of a header. -/
theorem decode_header_congr {h h' : Word} (ws : List Word) (hop : opcOf h = opcOf h')
    (hslot : opcOf h ≠ 0x08 → opcOf h ≠ 0x09 → slotOf h = slotOf h')
    (hpresent : opcOf h = 0x01 → presentOf h = presentOf h') (himm : opcOf h = 0x09 → immOf h = immOf h') :
    decode (h :: ws) = decode (h' :: ws) := by
  rw [decode_cons, decode_cons, ← hop]
  have hslot' {n : Nat} (hn : (opcOf h).toNat = n) (h8 : n ≠ 8) (h9 : n ≠ 9) : slotOf h = slotOf h' :=
    hslot (fun ho => h8 (by rw [← hn, ho]; rfl)) fun ho => h9 (by rw [← hn, ho]; rfl)
  split
  case h_1 hn => rw [hslot' hn (by decide) (by decide), hpresent (BitVec.eq_of_toNat_eq hn)]
  case h_9 hn => rw [himm (BitVec.eq_of_toNat_eq hn)]
  case h_8 | h_10 => rfl
  case h_2 hn | h_3 hn | h_4 hn | h_5 hn | h_6 hn | h_7 hn => rw [hslot' hn (by decide) (by decide)]

/-- The three byte fields of an operand word lie in its bits 23:0 (R92). -/
theorem bytes_congr {w w' : Word} (hw : w.extractLsb' 0 24 = w'.extractLsb' 0 24) :
    byte0 w = byte0 w' ∧ byte1 w = byte1 w' ∧ byte2 w = byte2 w' := by
  have hfield (k : Nat) (hk : k + 8 ≤ 24) : w.extractLsb' k 8 = w'.extractLsb' k 8 := by
    rw [← BitVec.extractLsb'_extractLsb'_of_le hk, hw, BitVec.extractLsb'_extractLsb'_of_le hk]
  exact ⟨hfield 0 (by decide), hfield 8 (by decide), hfield 16 (by decide)⟩

namespace Machine

open Safety

/-! ### Reserved bits of a written value (R37, R40, R42, R44) -/

/-- Values that agree under a mask agree in every field the mask covers. -/
theorem extract_congr_of_mask {n : Nat} {v v' m : BitVec n} (k l : Nat) (hm : m.extractLsb' k l = BitVec.allOnes l)
    (h : v &&& m = v' &&& m) : v.extractLsb' k l = v'.extractLsb' k l := by
  have hx := congrArg (BitVec.extractLsb' k l) h
  rwa [BitVec.extractLsb'_and, BitVec.extractLsb'_and, hm, BitVec.and_allOnes, BitVec.and_allOnes] at hx

theorem getLsbD_congr_of_mask {n : Nat} {v v' m : BitVec n} (k : Nat) (hm : m.getLsbD k = true)
    (h : v &&& m = v' &&& m) : v.getLsbD k = v'.getLsbD k := by
  simpa only [BitVec.getLsbD_and, hm, Bool.and_true] using congrArg (BitVec.getLsbD · k) h

theorem eq_of_mask_allOnes {v v' : Word} (h : v &&& 0xFFFFFFFF = v' &&& 0xFFFFFFFF) : v = v' := by
  have hx : v &&& BitVec.allOnes 32 = v' &&& BitVec.allOnes 32 := h
  rwa [BitVec.and_allOnes, BitVec.and_allOnes] at hx

theorem ctrlOf_congr {v v' : Word} (h : v &&& 0x00000003 = v' &&& 0x00000003) : ctrlOf v = ctrlOf v' := by
  rw [ctrlOf, ctrlOf, getLsbD_congr_of_mask 0 rfl h, getLsbD_congr_of_mask 1 rfl h]

/-- Words 6 and 7 of an instrument record hold nothing (R272). -/
theorem writeInstrument_of_le {k : Nat} (hk : 6 ≤ k) (v : Word) (I : Instrument) : writeInstrument k v I = I := by
  obtain ⟨j, rfl⟩ := Nat.exists_eq_add_of_le' hk
  rfl

section Tables

variable {v v' : Word} {ni ns nl a : Nat}

/-- An instrument record's word stores its implemented bits only (R40). -/
theorem writeInstrument_congr (ha : 0x1000 ≤ a ∧ a < 0x1000 + 8 * ni)
    (h : v &&& implementedBits ni ns nl a = v' &&& implementedBits ni ns nl a) :
    writeInstrument ((a - 0x1000) % 8) v = writeInstrument ((a - 0x1000) % 8) v' := by
  rw [implementedBits, if_neg (by omega), if_pos ha] at h
  generalize (a - 0x1000) % 8 = k at *
  funext I
  split at h
  case h_1 | h_5 => rw [eq_of_mask_allOnes h]
  case h_2 | h_3 => simp only [writeInstrument, low20, extract_congr_of_mask 0 20 rfl h]
  case h_4 => simp only [writeInstrument, low24, extract_congr_of_mask 0 24 rfl h]
  case h_6 =>
    simp only [writeInstrument, lowByte, highHalf, extract_congr_of_mask 0 8 rfl h, extract_congr_of_mask 16 16 rfl h]
  case h_7 =>
    have hk : 6 ≤ k := by simp only [imp_false] at *; omega
    rw [writeInstrument_of_le hk, writeInstrument_of_le hk]

/-- A source record's word stores its implemented bits only (R42). -/
theorem writeSource_congr (hi : ¬(0x1000 ≤ a ∧ a < 0x1000 + 8 * ni)) (ha : 0x2000 ≤ a ∧ a < 0x2000 + 16 * ns)
    (h : v &&& implementedBits ni ns nl a = v' &&& implementedBits ni ns nl a) :
    writeSource ((a - 0x2000) % 16) v = writeSource ((a - 0x2000) % 16) v' := by
  rw [implementedBits, if_neg (by omega), if_neg hi, if_pos ha] at h
  generalize (a - 0x2000) % 16 = k at *
  funext S
  split at h
  case h_1 =>
    simp only [writeSource, getLsbD_congr_of_mask 0 rfl h, getLsbD_congr_of_mask 1 rfl h,
      getLsbD_congr_of_mask 2 rfl h]
  case h_2 =>
    simp only [writeSource, lowByte, secondByte, extract_congr_of_mask 0 8 rfl h, extract_congr_of_mask 8 8 rfl h]
  case h_3 => simp only [writeSource, lowByte, extract_congr_of_mask 0 8 rfl h]
  case h_4 =>
    simp only [writeSource, lowByte, middleHalf, extract_congr_of_mask 0 8 rfl h, extract_congr_of_mask 8 16 rfl h]
  case h_5 => rfl
  case h_6 => rw [eq_of_mask_allOnes h]

/-- A register write stores the implemented bits of its value only: by the address, in the order of the map (R271). -/
theorem writeRegister_congr {s : State}
    (h : v &&& implementedBits s.ni s.ns s.nl a = v' &&& implementedBits s.ni s.ns s.nl a) :
    writeRegister a v s = writeRegister a v' s := by
  unfold writeRegister
  split_ifs with hctrl hinst hsrc hlut
  · rw [implementedBits, if_pos hctrl] at h
    rw [ctrlOf_congr h]
  · rw [writeInstrument_congr hinst h]
  · rw [writeSource_congr hinst hsrc h]
  · rw [implementedBits, if_neg hctrl, if_neg hinst, if_neg hsrc, if_pos hlut] at h
    rw [eq_of_mask_allOnes h]
  · rfl

end Tables

/-- Every command answers a next state (R100, R290). -/
theorem exec_completes (i : Instr) (s : State) : Completes (exec i s) := by
  cases i with
  | setgain | setrate | mixframe | wrreg => exact ⟨_, rfl⟩
  | trig | stop | noteoff =>
    simp only [exec, execTrig, execStop, execNoteoff]
    split <;> exact ⟨_, rfl⟩
  | noteon =>
    simp only [exec, execNoteon]
    split
    · exact ⟨_, rfl⟩
    · split
      · exact ⟨_, rfl⟩
      · split <;> exact ⟨_, rfl⟩
  | updpos =>
    simp only [exec, execUpdpos]
    split
    · exact ⟨_, rfl⟩
    · split
      · split <;> exact ⟨_, rfl⟩
      · exact ⟨_, rfl⟩

/-! ### A slot or source out of range (R99) -/

/-- Whether a slot is out of range depends on the table sizes only. -/
theorem slotOutOfRange_congr {s t : State} {i : Instr} (hnv : t.nv = s.nv) (hns : t.ns = s.ns)
    (h : SlotOutOfRange s i) : SlotOutOfRange t i := by
  cases i with
  | mixframe | wrreg => exact h
  | updpos => exact hns.trans_le h
  | _ => exact hnv.trans_le h

/-- A command whose slot is out of range is a no-op (R99). -/
theorem exec_of_slotOutOfRange {i : Instr} {s : State} (h : SlotOutOfRange s i) : exec i s = .next s := by
  cases i with
  | trig slot present =>
    have hv : s.nv ≤ slot.toNat := h
    cases present with
    | false => rfl
    | true => simp [exec, execTrig, trigger, hv]
  | stop | noteon | noteoff => exact if_pos h
  | setgain | setrate => exact congrArg Host.Outcome.next (if_pos h)
  | updpos slot =>
    have hnone : s.sources[slot.toNat]? = none := List.getElem?_eq_none h
    simp [exec, execUpdpos, hnone]
  | mixframe | wrreg => exact h.elim

/-! ### Gain fields (R97) -/

/-- A gain byte that is no negative number is held to 64. -/
theorem clampg_eq_of_nonneg {b : Byte} (h : b.toNat < 0x80) : clampg b = min b.toNat 64 := by
  have hint : b.toInt = b.toNat := BitVec.toInt_eq_toNat_of_lt (by omega)
  simp only [clampg, clamp, hint]
  split
  · omega
  · split <;> omega

/-- A gain byte that is a negative number gives 0. -/
theorem clampg_eq_of_neg {b : Byte} (h : 0x80 ≤ b.toNat) : clampg b = 0 := by
  have hneg : b.toInt < 0 := by rw [BitVec.toInt_eq_toNat_cond]; have := b.isLt; split <;> omega
  simp [clampg, clamp, hneg]

/-! ### The command port while a packet is open (R95) -/

/-- A packet taken from an empty assembler leaves it as it is. -/
theorem packetTaken_of_empty {s : State} {rest : List Input} (hopen : s.openPacket = []) :
    packetTaken s rest = { s with inputs := rest } := by
  simp only [packetTaken, State.setOpenPacket, State.setInputs, ← hopen]

/-- Packet assembly holds words while operand words are missing. -/
theorem fetchPacket_holds (rest : List Input) : ∀ (ws : List Word) {held : List Word},
    decode (held ++ ws) = .incomplete → fetchPacket held (ws.map .word ++ rest) = fetchPacket (held ++ ws) rest
  | [], held, _ => by simp
  | w :: ws, held, hd => by
    have hd' : decode ((held ++ [w]) ++ ws) = .incomplete := by simpa using hd
    have ih := fetchPacket_holds rest ws hd'
    simpa [fetchPacket, decode_incomplete_of_append hd'] using ih

/-- A step that takes words and does not complete their packet holds them, and leaves what comes next. -/
theorem step_holds {s : State} {ws : List Word} {rest : List Input} (hne : ws ≠ [])
    (hin : s.inputs = ws.map .word ++ rest) (hd : decode (s.openPacket ++ ws) = .incomplete)
    (hrest : ∀ held, fetchPacket held rest = .waiting held rest) :
    step s = .next ((s.setOpenPacket (s.openPacket ++ ws)).setInputs rest) := by
  have hf : fetchPacket s.openPacket (ws.map .word ++ rest) = .waiting (s.openPacket ++ ws) rest :=
    (fetchPacket_holds rest ws hd).trans (hrest _)
  cases ws with
  | nil => exact absurd rfl hne
  | cons w ws =>
    simp only [List.map_cons, List.cons_append] at hin hf
    simp only [step, takeInput, hin, hf]

end Machine

namespace Proofs

open Machine Safety

/-- Settles O1: the round trip of each command. -/
theorem decodeEncodeRoundTrip : Obligations.DecodeEncodeRoundTrip := decode_encode

/-- Settles O2: each of the decoder's three answers says what it read. -/
theorem decodeTakesOnePacket : Obligations.DecodeTakesOnePacket := by
  refine ⟨fun ws i rest hd => ?command, fun ws o rest hd => ?reserved, fun ws hd => ?incomplete⟩ <;>
    rcases ws with _ | ⟨h, ws⟩
  case command.nil | reserved.nil => cases hd
  case incomplete.nil => exact .inl rfl
  case command.cons =>
    obtain ⟨hop, ops, rfl, hlen, hafter⟩ := decode_instr_packet hd
    have hpacket : decode (h :: ops) = .instr i [] := by simpa using hafter []
    have hsize : (h :: ops).length = i.packetLength := by rw [List.length_cons, hlen, Nat.add_comm]; rfl
    exact ⟨h :: ops, rfl, hsize, packetWf_of_decode hpacket, congrArg some hop, hpacket⟩
  case reserved.cons =>
    obtain ⟨rfl, hop, hnone⟩ := operandCount_of_decode_reserved hd
    exact ⟨h, rfl, hop, hnone⟩
  case incomplete.cons =>
    obtain ⟨k, hk, hlt⟩ := operandCount_of_decode_incomplete hd
    exact .inr ⟨h, ws, k, rfl, hk, hlt⟩

/-- Settles O4: the fields the decoder reads, the fields a register write stores, and every command's next state. -/
theorem ignoredBitsHaveNoEffect : Obligations.IgnoredBitsHaveNoEffect := by
  refine ⟨fun h h' ws => decode_header_congr ws, fun h w w' ws hop hw => ?bytes,
    fun h w1 w2 w3 w4 w5 w w' ws hop hw => ?gains,
    fun s a v v' hv => congrArg Host.Outcome.next (writeRegister_congr hv), exec_completes⟩
  case bytes =>
    obtain ⟨h0, h1, h2⟩ := bytes_congr hw
    rcases hop with hop | hop
    · rw [decode_setgain hop, decode_setgain hop, h0, h1, h2]
    · rw [decode_noteon hop, decode_noteon hop, h0, h1, h2]
  case gains =>
    obtain ⟨h0, h1, h2⟩ := bytes_congr hw
    rw [decode_trig hop, decode_trig hop, h0, h1, h2]

/-- Settles O5: the decoder passes the header alone, and the assembler was empty. -/
theorem reservedOpcodeIsOneWordNoOp : Obligations.ReservedOpcodeIsOneWordNoOp := by
  intro s h rest hopen hin hop
  have hnone : operandCount (opcOf h) = none := (operandCount_eq_none_iff _).mpr hop
  have hd : decode [h] = .reserved (opcOf h) [] := decode_reserved hnone []
  have hf : fetchPacket s.openPacket (.word h :: rest) = .reserved rest := by simp [fetchPacket, hopen, hd]
  simp only [step, takeInput, hin, hf, packetTaken_of_empty hopen]

/-- Settles O6: the command is a no-op, and the step that completes its packet runs it. -/
theorem outOfRangeSlotIsNoOp : Obligations.OutOfRangeSlotIsNoOp := by
  refine fun i s hi => ⟨exec_of_slotOutOfRange hi, fun ws rest hd hopen hin => ?_⟩
  have hne : ws ≠ [] := by rintro rfl; cases hd
  calc step s = exec i (packetTaken s rest) := stepRunsDecodedPacket s i ws rest hne (by simpa [hopen] using hd) hin
    _ = .next (packetTaken s rest) := exec_of_slotOutOfRange (slotOutOfRange_congr rfl rfl hi)
    _ = .next { s with inputs := rest } := by rw [packetTaken_of_empty hopen]

/-- Settles O11: the step before the `TICK` holds the words, and the step after it completes the packet with them. -/
theorem tickInsideOpenPacket : Obligations.TickInsideOpenPacket := by
  intro s i ws1 ws2 rest hne1 hne2 hd hopen hin
  have hwait : decode (s.openPacket ++ ws1) = .incomplete := by
    simpa [hopen] using decode_prefix_incomplete hne2 hd
  have hheld := step_holds hne1 hin hwait fun _ => rfl
  rw [hopen, List.nil_append] at hheld
  refine ⟨_, _, hheld, rfl, step_of_tick rfl, rfl, rfl, ?presented, rfl, rfl, ?completed⟩
  case presented => simp [tickEvent]
  case completed => exact stepRunsDecodedPacket _ i ws2 rest hne2 hd rfl

/-- Settles O3: the encoder writes the words of the table, and the round trip reads them back. -/
theorem workedEncodings : Obligations.WorkedEncodings := by
  intro p hp
  have henc : encode p.1 = p.2 := by revert p; decide
  refine ⟨henc, ?_⟩
  rw [← henc]
  simpa using decode_encode p.1 []

/-- Settles O7: the byte as a signed number, below 0, in 0..64 or above. -/
theorem gainFieldsClamp : Obligations.GainFieldsClamp := by
  intro b
  refine ⟨fun h => ?_, fun h h' => ?_, fun h => ?_, fun c I key => rfl, fun S value hv => hv ▸ rfl⟩
  · rw [gainOf_toNat, clampg_eq_of_nonneg (by omega)]; omega
  · rw [gainOf_toNat, clampg_eq_of_nonneg (by omega)]; omega
  · rw [gainOf_toNat, clampg_eq_of_neg h]

/-- Settles O12: with no word at all the step waits, else it holds the words. -/
theorem openPacketWaits : Obligations.OpenPacketWaits := by
  intro s ws hin hd
  cases ws with
  | nil =>
    have hnone : s.inputs = [] := hin
    have hstep : step s = .next s := by simp only [step, takeInput, hnone]
    rw [hstep, List.append_nil, ← hnone]
  | cons w ws => exact step_holds (rest := []) nofun (by simpa using hin) hd fun _ => rfl

end Proofs

end Sys2Proof
end

section
/-! Proofs of the statements on the voice commands (spec/40_voice.md): what `TRIG`, `SETGAIN`, `SETRATE` and `STOP`
write (R121 to R124), and which commands can activate a voice (R125). -/

namespace Sys2Proof

namespace Machine

/-! ### What `Trigger` stores (R120) -/

/-- `Trigger` keeps a start below the sample's length, and takes the last cursor for any other (R120). -/
theorem clampStart_eq_ite (startPos length : Word) :
    clampStart startPos length = if startPos.toNat < length.toNat then startPos else length - 1 := by
  unfold clampStart
  split
  · rename_i hle
    exact (if_neg (Nat.not_lt_of_le hle)).symm
  · rename_i hgt
    exact (if_pos (Nat.lt_of_not_le hgt)).symm

/-- `Trigger` keeps a loop no longer than the sample, and takes the whole sample for any other (R120). -/
theorem clampLoop_eq_ite (loopLength length : Word) :
    clampLoop loopLength length = if loopLength.toNat ≤ length.toNat then loopLength else length :=
  if_congr Iff.rfl rfl rfl

/-! ### The voice commands on the voice table (R121 to R124, R203) -/

section Commands

variable {s : State} {slot : Byte}

theorem State.modifyVoice_of_le {v : Nat} (f : Voice → Voice) (h : s.nv ≤ v) : s.modifyVoice v f = s := by
  rw [State.modifyVoice, modify_of_le f h]
  rfl

/-- A `TRIG` that carries a sample is `Trigger` with its gains clamped (R121). -/
theorem exec_trig_present (base startPos length loopLength inc : Word) (vol panL panR : Byte) :
    exec (.trig slot true base startPos length loopLength inc vol panL panR) s = .next { s with
      voices := if length = 0 then s.voices
        else s.voices.set slot.toNat
          (triggered base startPos length loopLength inc (gainOf vol) (gainOf panL) (gainOf panR)) } :=
  congrArg Host.Outcome.next (trigger_eq ..)

theorem exec_setgain (vol panL panR : Byte) :
    exec (.setgain slot vol panL panR) s = .next { s with
      voices := s.voices.modify slot.toNat fun V =>
        { V with volume := gainOf vol, panLeft := gainOf panL, panRight := gainOf panR } } :=
  congrArg Host.Outcome.next (setGains_eq ..)

theorem exec_setrate (inc : Word) :
    exec (.setrate slot inc) s = .next { s with
      voices := s.voices.modify slot.toNat fun V => { V with increment := incrementOf inc } } :=
  congrArg Host.Outcome.next (setRate_eq ..)

/-- `STOP` is one update of the voice table, an empty one when the slot is out of range (R99, R124). -/
theorem exec_stop : exec (.stop slot) s = .next (s.modifyVoice slot.toNat stopped) := by
  simp only [exec, execStop]
  split
  · rw [State.modifyVoice_of_le _ ‹_›]
  · rfl

/-- `NOTEOFF` is one update of the voice table, an empty one when the slot is out of range (R99, R203). -/
theorem exec_noteoff : exec (.noteoff slot) s = .next (s.modifyVoice slot.toNat released) := by
  simp only [exec, execNoteoff]
  split
  · rw [State.modifyVoice_of_le _ ‹_›]
  · rfl

/-- `STOP` on a slot that holds a voice replaces that voice by the stopped one (R124). -/
theorem exec_stop_of_voice {V : Voice} (hV : s.voices[slot.toNat]? = some V) :
    exec (.stop slot) s = .next { s with voices := s.voices.set slot.toNat (stopped V) } := by
  rw [exec_stop, State.modifyVoice, modify_of_getElem? _ hV]
  rfl

end Commands

theorem stopped_of_noEnvelope {V : Voice} (h : V.envEn = false) : stopped V = { V with active := false } := by
  simp [stopped, h]

theorem stopped_of_envelope {V : Voice} (h : V.envEn = true) :
    stopped V = { V with sounding := false, phase := .release } := by
  simp [stopped, released, h]

/-! ### Inactive voices (R125) -/

/-- Neither arm of `STOP` activates a voice. -/
theorem stopped_inactive {V : Voice} (h : V.active = false) : (stopped V).active = false := by
  unfold stopped
  split
  · exact h
  · rfl

/-- An inactive voice has no envelope tick (R161). -/
theorem turnStart_inactive {V : Voice} (h : V.active = false) : turnStart V = V := by
  simp [turnStart, h]

/-- A turn leaves an inactive voice as it is (R146, R161). -/
theorem voiceTurn_inactive (m : List Host.Cell) (c : Ctrl) (spf : Nat) {V : Voice} (h : V.active = false) :
    (voiceTurn m c spf V).1 = V := by
  simp only [voiceTurn, turnStart_inactive h, playSamples_inactive m c _ spf h]

/-- An update that activates no voice keeps an inactive voice inactive, be it the voice updated or another one. -/
theorem inactive_of_modify {vs : List Voice} {v k : Nat} {f : Voice → Voice} {V W : Voice}
    (hf : V.active = false → (f V).active = false) (hV : vs[k]? = some V) (hoff : V.active = false)
    (hW : (vs.modify v f)[k]? = some W) : W.active = false := by
  obtain rfl | rfl := getElem?_modify_cases hV hW
  · exact hoff
  · exact hf hoff

/-- `MIXFRAME` leaves an inactive voice as it is. -/
theorem mixframe_keepsInactive {s t : State} {k : Nat} {V : Voice} (h : exec .mixframe s = .next t)
    (hV : s.voices[k]? = some V) (hoff : V.active = false) : t.voices[k]? = some V := by
  obtain ⟨b, rfl⟩ := mix_next h
  simp only [List.getElem?_map, hV, Option.map_some, voiceTurn_inactive _ _ _ hoff]

end Machine

namespace Proofs

open Machine Safety

/-- Settles O23: the four voice updates activate nothing, `MIXFRAME` passes an inactive voice by, and `WRREG` writes no
voice. -/
theorem inactiveVoiceStaysInactive : Obligations.InactiveVoiceStaysInactive := by
  intro i s t k V W htrig hnoteon hupdpos h hV hoff hW
  cases i with
  | trig => exact absurd rfl htrig
  | noteon => exact absurd rfl hnoteon
  | updpos => exact absurd rfl hupdpos
  | stop =>
    cases exec_stop.symm.trans h
    exact inactive_of_modify stopped_inactive hV hoff hW
  | setgain =>
    cases (exec_setgain ..).symm.trans h
    exact inactive_of_modify id hV hoff hW
  | setrate =>
    cases (exec_setrate _).symm.trans h
    exact inactive_of_modify id hV hoff hW
  | noteoff =>
    cases exec_noteoff.symm.trans h
    exact inactive_of_modify id hV hoff hW
  | mixframe =>
    cases hW.symm.trans (mixframe_keepsInactive h hV hoff)
    exact hoff
  | wrreg =>
    obtain ⟨hvoices, -⟩ := wrreg_keepsOutput h
    cases hV.symm.trans (hvoices ▸ hW)
    exact hoff

/-- Settles O19: `TRIG` is `Trigger` with its gains clamped, and `Trigger` clamps the cursor and the loop. -/
theorem trigStartsVoice : Obligations.TrigStartsVoice := by
  refine fun s slot base startPos length loopLength inc vol panL panR => ⟨rfl, ?noop, fun hlen _ => ?starts⟩
  case noop =>
    rintro (hlen | hslot)
    · rw [exec_trig_present, if_pos hlen]
    · exact exec_of_slotOutOfRange hslot
  case starts =>
    rw [exec_trig_present, if_neg hlen, triggered, clampStart_eq_ite, clampLoop_eq_ite]
    rfl

/-- Settles O20: the one update of `SetGains`, at the voice that is there. -/
theorem setgainWritesGains : Obligations.SetgainWritesGains := by
  refine fun s slot vol panL panR => ⟨fun hslot => exec_of_slotOutOfRange hslot, fun V hV => ?_⟩
  rw [exec_setgain, modify_of_getElem? _ hV]
  rfl

/-- Settles O21: the one update of `SetRate`, at the voice that is there. -/
theorem setrateWritesIncrement : Obligations.SetrateWritesIncrement := by
  refine fun s slot inc => ⟨fun hslot => exec_of_slotOutOfRange hslot, fun V hV => ?_⟩
  rw [exec_setrate, modify_of_getElem? _ hV]
  rfl

/-- Settles O22: the two arms of `STOP`, at the voice that is there. -/
theorem stopEndsOrReleases : Obligations.StopEndsOrReleases := by
  refine fun s slot => ⟨fun hslot => exec_of_slotOutOfRange hslot, fun V hV => ⟨fun henv => ?_, fun henv => ?_⟩⟩
  · rw [exec_stop_of_voice hV, stopped_of_noEnvelope henv]
  · rw [exec_stop_of_voice hV, stopped_of_envelope henv]

end Proofs

end Sys2Proof
end

section
/-! Proofs of the statements on the resampler's cursor (spec/41_resampler.md): `Advance` against the rule's `while` loop
(R145), the phase a loop wrap keeps (R147) and the extent of an advanced cursor (R148). -/

namespace Sys2Proof

namespace Machine

/-! ### The closed form of a loop wrap (R147) -/

section Wrap

variable {length loopLength p : Nat}

/-- What a wrap subtracts is never more than the cursor, so the cursor is the wrapped one and the whole loop lengths
taken off: the phase is kept. -/
theorem wrapCursor_add (hle : loopLength ≤ length) (hp : length ≤ p) :
    wrapCursor p length loopLength + ((p - length) / loopLength + 1) * loopLength = p := by
  refine Nat.sub_add_cancel ?_
  have hdiv : (p - length) / loopLength * loopLength ≤ p - length := Nat.div_mul_le_self ..
  rw [Nat.succ_mul]
  omega

/-- The wrapped cursor is not below the loop region. -/
theorem le_wrapCursor (hle : loopLength ≤ length) (hp : length ≤ p) :
    length - loopLength ≤ wrapCursor p length loopLength := by
  have hsum := wrapCursor_add hle hp
  have hdiv : (p - length) / loopLength * loopLength ≤ p - length := Nat.div_mul_le_self ..
  rw [Nat.succ_mul] at hsum
  omega

/-- A cursor less than one loop length past the end goes back by one loop length. -/
theorem wrapCursor_of_lt (hp : p - loopLength < length) (hge : length ≤ p) :
    wrapCursor p length loopLength = p - loopLength := by
  rw [wrapCursor, Nat.div_eq_of_lt (by omega), Nat.zero_add, Nat.one_mul]

/-- A cursor that is still past the end one loop length earlier wraps to the same place from there. -/
theorem wrapCursor_sub (hpos : 0 < loopLength) (hle : loopLength ≤ length) (hp : length ≤ p - loopLength) :
    wrapCursor (p - loopLength) length loopLength = wrapCursor p length loopLength := by
  have hdiv : (p - length) / loopLength = (p - loopLength - length) / loopLength + 1 := by
    rw [Nat.div_eq_sub_div hpos (by omega), Nat.sub_right_comm]
  rw [wrapCursor, wrapCursor, hdiv, Nat.succ_mul (_ + 1), Nat.sub_sub, Nat.add_comm loopLength]

/-! ### The rule's `while` loop (R145) -/

theorem wrapLoop_of_lt (fuel : Nat) (hp : p < length) : wrapLoop length loopLength fuel p = p := by
  cases fuel with
  | zero => rfl
  | succ fuel => exact if_neg (Nat.not_le_of_lt hp)

/-- The `while` loop stops where the closed form says, by induction on its rounds: each round moves the cursor one loop
length back, which is either the last one or leaves the closed form as it was. -/
theorem wrapLoop_eq_wrapCursor (hpos : 0 < loopLength) (hle : loopLength ≤ length) {fuel : Nat} (hp : length ≤ p)
    (hfuel : p ≤ fuel) : wrapLoop length loopLength fuel p = wrapCursor p length loopLength := by
  induction fuel generalizing p with
  | zero => omega
  | succ fuel ih =>
    rw [wrapLoop, if_pos hp]
    by_cases hlast : p - loopLength < length
    · rw [wrapLoop_of_lt fuel hlast, wrapCursor_of_lt hlast hp]
    · rw [ih (by omega) (by omega), wrapCursor_sub hpos hle (by omega)]

end Wrap

/-! ### The three arms of `Advance` (R145) -/

/-- A word stores the low bits of a number. -/
theorem ofNat_mod_two_pow (w n : Nat) : BitVec.ofNat w (n % 2 ^ w) = BitVec.ofNat w n :=
  BitVec.eq_of_toNat_eq (Nat.mod_mod ..)

section Arms

variable {V : Voice}

theorem advance_of_lt (hp : V.position.toNat + V.increment.toNat < V.length.toNat) :
    advance V = { V with position := BitVec.ofNat 32 (V.position.toNat + V.increment.toNat) } :=
  if_pos hp

theorem advance_of_noLoop (hp : V.length.toNat ≤ V.position.toNat + V.increment.toNat) (hloop : V.loopLength = 0) :
    advance V =
      { V with active := false, position := BitVec.ofNat 32 (V.position.toNat + V.increment.toNat) } :=
  (if_neg (Nat.not_lt_of_le hp)).trans (if_pos hloop)

theorem advance_of_loop (hp : V.length.toNat ≤ V.position.toNat + V.increment.toNat) (hloop : V.loopLength ≠ 0) :
    advance V = { V with
      position := BitVec.ofNat 32
        (wrapCursor (V.position.toNat + V.increment.toNat) V.length.toNat V.loopLength.toNat) } :=
  (if_neg (Nat.not_lt_of_le hp)).trans (if_neg hloop)

theorem loopLength_toNat_pos (hloop : V.loopLength ≠ 0) : 0 < V.loopLength.toNat := by bv_omega

/-- The wrapped cursor fits the 32 bits of `position`, since it lies below `length`. -/
theorem advance_position_of_loop (hp : V.length.toNat ≤ V.position.toNat + V.increment.toNat)
    (hloop : V.loopLength ≠ 0) (hle : V.loopLength.toNat ≤ V.length.toNat) :
    (advance V).position.toNat =
      wrapCursor (V.position.toNat + V.increment.toNat) V.length.toNat V.loopLength.toNat := by
  rw [advance_of_loop hp hloop, BitVec.toNat_ofNat]
  exact Nat.mod_eq_of_lt ((wrapCursor_lt (loopLength_toNat_pos hloop) hle).trans V.length.isLt)

end Arms

end Machine

namespace Proofs

open Machine Safety

/-- Settles O30: the three arms of `Advance`; in the last the closed form is where the `while` loop stops. -/
theorem advanceFollowsWhileLoop : Obligations.AdvanceFollowsWhileLoop := by
  refine fun V => ⟨advance_of_lt, fun hp hloop => ?ended, fun hp hloop hle fuel hfuel => ?wrapped⟩
  case ended =>
    rw [advance_of_noLoop hp hloop, ofNat_mod_two_pow]
  case wrapped =>
    rw [advance_of_loop hp hloop, wrapLoop_eq_wrapCursor (loopLength_toNat_pos hloop) hle hp hfuel]

/-- Settles O31: the closed form lies in the loop region, and adding back what it took off gives the cursor. -/
theorem loopWrapKeepsPhase : Obligations.LoopWrapKeepsPhase := by
  intro V hloop hle hp
  have hactive : (advance V).active = V.active := by rw [advance_of_loop hp hloop]
  rw [advance_position_of_loop hp hloop hle]
  exact ⟨hactive, le_wrapCursor hle hp, wrapCursor_lt (loopLength_toNat_pos hloop) hle, (wrapCursor_add hle hp).symm⟩

/-- Settles O32: an advanced voice is sound, and the cursor of a sound active voice lies in its extent. -/
theorem positionStaysInExtent : Obligations.PositionStaysInExtent := by
  intro V hV hactive
  obtain ⟨-, -, -, -, hcursor, -, -⟩ := voiceOk_advance hV
  exact (hcursor hactive).1

end Proofs

end Sys2Proof
end

section
/-! Proofs of the statements on the mixer (spec/42_mixer.md): a voice's turn (R161 to R165), the applier (R166 to
R168), the accumulators (R169), the downscale and its clamp (R170 to R172), and the stored frame (R160, R175). -/

namespace Sys2Proof

namespace Machine

open Safety

/-! ### The sample loop as iterated `Advance` (R145, R161) -/

theorem iterate_advance_inactive {V : Voice} (h : V.active = false) (n : Nat) : (advance^[n] V).active = false :=
  Function.Iterate.rec (fun W : Voice => W.active = false) h (fun _ => advance_inactive) n

/-- The applier reads the pans of a voice only, and `Advance` keeps them (R166). -/
theorem contribution_advance (stereo : Bool) (g : Nat) (V : Voice) (val : Int) :
    contribution stereo g (advance V) val = contribution stereo g V val := by
  simp only [contribution, advance_panLeft, advance_panRight]

section SampleLoop

variable (m : List Host.Cell) (c : Ctrl) (g : Nat) {V : Voice}

theorem playSamples_active (k : Nat) (h : V.active = true) :
    playSamples m c g (k + 1) V = ((playSamples m c g k (advance V)).1,
      contribution c.stereo g V (fetchSample m c.interp V) :: (playSamples m c g k (advance V)).2) :=
  if_pos h

/-- The sample loop fetches at each output index from the voice advanced that often, while that is active. -/
theorem playSamples_getElem? {i k : Nat} (hi : i < k) :
    (playSamples m c g k V).2[i]? = some
      (if (advance^[i] V).active = true
        then contribution c.stereo g V (fetchSample m c.interp (advance^[i] V)) else (0, 0)) := by
  induction k generalizing V i with
  | zero => exact absurd hi (Nat.not_lt_zero i)
  | succ k ih =>
    by_cases hactive : V.active = true
    · rw [playSamples_active m c g k hactive]
      cases i with
      | zero => simp [hactive]
      | succ i =>
        rw [List.getElem?_cons_succ, ih (Nat.lt_of_succ_lt_succ hi), contribution_advance]
        rfl
    · have hoff : V.active = false := Bool.eq_false_of_not_eq_true hactive
      rw [playSamples_inactive m c g _ hoff, List.getElem?_replicate_of_lt hi, iterate_advance_inactive hoff]
      rfl

/-- The sample loop advances the voice until the frame or the voice ends (R161, R165). -/
theorem playSamples_voice (k : Nat) (V : Voice) :
    ∃ n ≤ k, (playSamples m c g k V).1 = advance^[n] V ∧ (∀ j < n, (advance^[j] V).active = true) ∧
      (n < k → (playSamples m c g k V).1.active = false) := by
  induction k generalizing V with
  | zero => exact ⟨0, Nat.le_refl 0, rfl, nofun, nofun⟩
  | succ k ih =>
    by_cases hactive : V.active = true
    · obtain ⟨n, hle, hvoice, hplayed, hended⟩ := ih (advance V)
      rw [playSamples_active m c g k hactive]
      refine ⟨n + 1, Nat.succ_le_succ hle, hvoice, fun j hj => ?_, fun hlt => hended (Nat.lt_of_succ_lt_succ hlt)⟩
      cases j with
      | zero => exact hactive
      | succ j => exact hplayed j (Nat.lt_of_succ_lt_succ hj)
    · have hoff : V.active = false := Bool.eq_false_of_not_eq_true hactive
      rw [playSamples_inactive m c g _ hoff]
      exact ⟨0, Nat.zero_le _, rfl, nofun, fun _ => hoff⟩

end SampleLoop

/-! ### The fields a turn may change (R160) -/

/-- `EnvTick` touches `level`, `phase` and `active` only (R191). -/
theorem envTick_frame (V : Voice) :
    envTick V =
      { V with level := (envTick V).level, phase := (envTick V).phase, active := (envTick V).active } := by
  cases h : V.phase <;> simp only [envTick, h]
  case attack => unfold attackTick; dsimp only; split_ifs <;> simp [h]
  case decay => unfold decayTick; dsimp only; split_ifs <;> simp [h]
  case sustain => rw [← h]
  case release => unfold releaseTick; split <;> simp [h]

theorem turnStart_frame (V : Voice) :
    turnStart V =
      { V with level := (turnStart V).level, phase := (turnStart V).phase, active := (turnStart V).active } := by
  unfold turnStart
  split
  · exact envTick_frame V
  · rfl

theorem turnStart_of_noEnvelope {V : Voice} (h : V.envEn = false) : turnStart V = V := by simp [turnStart, h]

section Turn

variable (m : List Host.Cell) (c : Ctrl) (spf : Nat) {V : Voice}

/-- A turn changes the fields of its envelope tick and of its advances only (R160). -/
theorem voiceTurn_frame (V : Voice) :
    (voiceTurn m c spf V).1 = { V with
      position := (voiceTurn m c spf V).1.position
      active := (voiceTurn m c spf V).1.active
      phase := (voiceTurn m c spf V).1.phase
      level := (voiceTurn m c spf V).1.level } := by
  simp only [voiceTurn]
  rw [playSamples_frame, turnStart_frame]

/-- Without an envelope a turn has no tick, so it leaves phase and level as they are (R164). -/
theorem voiceTurn_of_noEnvelope (h : V.envEn = false) :
    (voiceTurn m c spf V).1.phase = V.phase ∧ (voiceTurn m c spf V).1.level = V.level := by
  simp only [voiceTurn, turnStart_of_noEnvelope h]
  rw [playSamples_frame]
  exact ⟨rfl, rfl⟩

end Turn

/-! ### The applier (R166 to R168) -/

/-- A contribution as R168 bounds it, on both sides. -/
def InFullScale (c : Int × Int) : Prop := -8192 ≤ c.1 ∧ c.1 ≤ 8128 ∧ -8192 ≤ c.2 ∧ c.2 ≤ 8128

/-- A gain of at most 64 scales bounds around 0 by at most 64. -/
theorem mul_gain_bounds {lo hi v : Int} {g : Nat} (hlo : lo ≤ 0) (hhi : 0 ≤ hi) (h1 : lo ≤ v) (h2 : v ≤ hi)
    (hg : g ≤ 64) : lo * 64 ≤ v * g ∧ v * g ≤ hi * 64 := by
  have hg' : (g : Int) ≤ 64 := by exact_mod_cast hg
  have hpos : (0 : Int) ≤ g := Int.natCast_nonneg g
  exact ⟨(Int.mul_le_mul_of_nonpos_left hlo hg').trans (Int.mul_le_mul_of_nonneg_right h1 hpos),
    (Int.mul_le_mul_of_nonneg_right h2 hpos).trans (Int.mul_le_mul_of_nonneg_left hg' hhi)⟩

/-- A panned value keeps the bounds of a value with full gain (R168). -/
theorem panned_bounds {val : Int} {g p : Nat} (h1 : -128 ≤ val) (h2 : val ≤ 127) (hg : g ≤ 64) (hp : p ≤ 64) :
    -8192 ≤ tdiv (val * g * p) 64 ∧ tdiv (val * g * p) 64 ≤ 8128 := by
  obtain ⟨hlow, hhigh⟩ := mul_gain_bounds (by decide) (by decide) h1 h2 hg
  obtain ⟨hlow, hhigh⟩ := mul_gain_bounds (by decide) (by decide) hlow hhigh hp
  exact tdiv64_bounds (by decide) (by decide) hlow hhigh

theorem contribution_inFullScale (stereo : Bool) {V : Voice} {g : Nat} {val : Int} (h1 : -128 ≤ val) (h2 : val ≤ 127)
    (hg : g ≤ 64) (hl : V.panLeft.toNat ≤ 64) (hr : V.panRight.toNat ≤ 64) :
    InFullScale (contribution stereo g V val) := by
  cases stereo with
  | true =>
    obtain ⟨hl1, hl2⟩ := panned_bounds h1 h2 hg hl
    obtain ⟨hr1, hr2⟩ := panned_bounds h1 h2 hg hr
    exact ⟨hl1, hl2, hr1, hr2⟩
  | false =>
    obtain ⟨hlow, hhigh⟩ := mul_gain_bounds (by decide) (by decide) h1 h2 hg
    exact ⟨hlow, hhigh, show (-8192 : Int) ≤ 0 by decide, show (0 : Int) ≤ 8128 by decide⟩

/-- The applier is odd in the value (R168). -/
theorem contribution_neg (g : Nat) (V : Voice) (val : Int) :
    contribution true g V (-val) = (-(contribution true g V val).1, -(contribution true g V val).2) := by
  simp only [contribution, if_true, Int.neg_mul, tdiv_neg]

/-! ### The size of a turn's contributions (R168, R169) -/

theorem sampleAt_bounds (m : List Host.Cell) (V : Voice) (i : Nat) : -128 ≤ sampleAt m V i ∧ sampleAt m V i ≤ 127 := by
  have hlow := BitVec.le_toInt (sampleByte m (V.base + BitVec.ofNat 32 i))
  have hhigh := BitVec.toInt_lt (x := sampleByte m (V.base + BitVec.ofNat 32 i))
  unfold sampleAt sampleRead
  omega

/-- A fetched value is a signed byte in both modes: the blend lies between two of them (R143). -/
theorem fetchSample_bounds (m : List Host.Cell) (interp : Bool) (V : Voice) :
    -128 ≤ fetchSample m interp V ∧ fetchSample m interp V ≤ 127 := by
  cases interp with
  | false => exact sampleAt_bounds m V _
  | true =>
    obtain ⟨hlow0, hhigh0⟩ := sampleAt_bounds m V (sampleIndex V)
    obtain ⟨hlow1, hhigh1⟩ := sampleAt_bounds m V (nextIndex V)
    obtain ⟨hlow, hhigh⟩ := blend_bounds (sampleAt m V (sampleIndex V)) (sampleAt m V (nextIndex V))
      (Nat.mod_lt V.position.toNat (by decide : 0 < 4096))
    exact ⟨(le_min hlow0 hlow1).trans hlow, hhigh.trans (max_le hhigh0 hhigh1)⟩

/-- The envelope only lowers the volume, so a sound voice plays with a gain of at most 64 (R164). -/
theorem effectiveVolume_le {V : Voice} (h : V.volume.toNat ≤ 64) : effectiveVolume V ≤ 64 := by
  unfold effectiveVolume
  split
  · have hlevel : V.level.toNat ≤ 256 := V.level.isLt.le
    exact Nat.div_le_of_le_mul ((Nat.mul_le_mul h hlevel).trans_eq (Nat.mul_comm ..))
  · exact h

/-- A voice that is inactive at its turn contributes nothing (R163, R165). -/
theorem turnAt_of_silent {s : State} {V : Voice} (right : Bool) (i : Nat) (h : (turnStart V).active = false) :
    turnAt s right i V = 0 := by
  simp only [turnAt, voiceTurn, playSamples_inactive _ _ _ _ h]
  by_cases hi : i < s.consts.spf <;> simp [List.getD_eq_getElem?_getD, hi]

/-- What a sound voice contributes at any index is within R168's bounds, or nothing. -/
theorem voiceTurn_inFullScale (m : List Host.Cell) (c : Ctrl) (spf i : Nat) {V : Voice} (hV : VoiceOk V) :
    InFullScale ((voiceTurn m c spf V).2.2.getD i (0, 0)) := by
  have hzero : InFullScale (0, 0) := ⟨by decide, by decide, by decide, by decide⟩
  rw [List.getD_eq_getElem?_getD]
  by_cases hi : i < spf
  · obtain ⟨hvol, hpl, hpr, -⟩ := voiceOk_turnStart hV
    simp only [voiceTurn, playSamples_getElem? m c _ hi, Option.getD_some]
    split
    · obtain ⟨hlow, hhigh⟩ := fetchSample_bounds m c.interp (advance^[i] (turnStart V))
      exact contribution_inFullScale _ hlow hhigh (effectiveVolume_le hvol) hpl hpr
    · exact hzero
  · rw [List.getElem?_eq_none (by simpa using hi)]
    exact hzero

theorem turnAt_bounds (s : State) (right : Bool) (i : Nat) {V : Voice} (hV : VoiceOk V) :
    -8192 ≤ turnAt s right i V ∧ turnAt s right i V ≤ 8128 := by
  obtain ⟨hl1, hl2, hr1, hr2⟩ := voiceTurn_inFullScale s.samples s.ctrl s.consts.spf i hV
  cases right with
  | false => exact ⟨hl1, hl2⟩
  | true => exact ⟨hr1, hr2⟩

/-- A sum in which only the counted members are not 0 is bounded by the count times a member's bounds. -/
theorem sum_map_bounds_countP {α : Type} {f : α → Int} {p : α → Bool} {lo hi : Int} : ∀ {l : List α},
    (∀ x ∈ l, p x = false → f x = 0) → (∀ x ∈ l, lo ≤ f x ∧ f x ≤ hi) →
    l.countP p * lo ≤ (l.map f).sum ∧ (l.map f).sum ≤ l.countP p * hi
  | [], _, _ => by simp
  | x :: l, hzero, hbounds => by
    obtain ⟨hzero_x, hzero_l⟩ := List.forall_mem_cons.mp hzero
    obtain ⟨⟨hlow, hhigh⟩, hbounds_l⟩ := List.forall_mem_cons.mp hbounds
    obtain ⟨ihlow, ihhigh⟩ := sum_map_bounds_countP hzero_l hbounds_l
    rw [List.map_cons, List.sum_cons]
    cases hx : p x with
    | false =>
      rw [List.countP_cons_of_neg (by simp [hx]), hzero_x hx, Int.zero_add]
      exact ⟨ihlow, ihhigh⟩
    | true =>
      rw [List.countP_cons_of_pos hx]
      push_cast
      constructor <;> linarith

/-- The accumulators of a sound state, with the sharper bound above that a sample of at most 127 gives (R168, R169). -/
theorem frameSum_bounds {s : State} (hs : Inv s) (right : Bool) (i : Nat) :
    frameVoices s * (-8192) ≤ frameSum s right i ∧ frameSum s right i ≤ frameVoices s * 8128 :=
  sum_map_bounds_countP (fun _ _ h => turnAt_of_silent right i h) fun V hV => turnAt_bounds s right i (hs.voicesOk V hV)

theorem frameVoices_le (s : State) : frameVoices s ≤ s.nv := List.countP_le_length

/-! ### The downscale (R170 to R172) -/

theorem le_two_pow_downscaleShift (n : Nat) : n * 64 ≤ 2 ^ downscaleShift n := by
  obtain ⟨hle, -⟩ := ceilLog2_spec (max n 1)
  rw [downscaleShift, Nat.pow_add, Nat.mul_comm]
  exact Nat.mul_le_mul_left _ ((le_max_left n 1).trans hle)

theorem downscaleShift_pos (n : Nat) : 1 ≤ downscaleShift n := Nat.le_add_right_of_le (by decide)

/-- An accumulator from -128 to 127 whole output steps is downscaled into a signed byte: half a step does not lift 127
steps to 128 (R172). -/
theorem downscale_bounds {sh : Nat} {acc : Int} (hsh : 1 ≤ sh) (h1 : -128 * 2 ^ sh ≤ acc) (h2 : acc ≤ 127 * 2 ^ sh) :
    -128 ≤ downscale sh acc ∧ downscale sh acc ≤ 127 := by
  have hpos : (0 : Int) < 2 ^ sh := Int.pow_pos (by decide)
  have hhalf : (0 : Int) < 2 ^ (sh - 1) := Int.pow_pos (by decide)
  have hstep : (2 : Int) ^ sh = 2 ^ (sh - 1) * 2 := by rw [← pow_succ, Nat.sub_add_cancel hsh]
  constructor
  · exact (Int.le_ediv_iff_mul_le hpos).mpr (by linarith)
  · exact Int.lt_add_one_iff.mp (Int.ediv_lt_of_lt_mul hpos (by linarith))

/-- The clamp and the byte keep a downscaled value that is a signed byte (R171). -/
theorem outByte_toInt {sh : Nat} {acc : Int} (h1 : -128 ≤ downscale sh acc) (h2 : downscale sh acc ≤ 127) :
    (outByte sh acc).toInt = downscale sh acc := by
  rw [outByte, clamp8, clamp_of_mem h1 h2, BitVec.toInt_ofInt_eq_self (by decide)] <;> omega

theorem frameByte_eq_outByte (s : State) (right : Bool) (i : Nat) :
    frameByte s right i = outByte (downscaleShift (frameVoices s)) (frameSum s right i) := rfl

/-! ### The frame that is stored (R160, R175) -/

/-- `MIXFRAME` leaves every byte outside the halves it fills (R66, R160). -/
theorem mixframe_other {s t : State} {a : Nat} (h : exec .mixframe s = .next t)
    (hleft : ∀ i < s.consts.spf, a ≠ outAddr s.consts.spf false (!s.live) i)
    (hright : s.ctrl.stereo = true → ∀ i < s.consts.spf, a ≠ outAddr s.consts.spf true (!s.live) i) :
    Memory.read t.buffer a = Memory.read s.buffer a := by
  cases h
  rw [State.setBuffer_buffer]
  exact storeFrame_other _ _ _ (accumulate_length (frameTurns_length s)) hleft hright

section Silence

variable {s : State}

theorem frameVoices_of_noActive (h : ∀ V ∈ s.voices, V.active = false) : frameVoices s = 0 :=
  List.countP_eq_zero.mpr fun V hV => by simp [turnStart_inactive (h V hV), h V hV]

theorem frameSum_of_noActive (h : ∀ V ∈ s.voices, V.active = false) (right : Bool) (i : Nat) :
    frameSum s right i = 0 := by
  refine List.sum_eq_zero fun x hx => ?_
  obtain ⟨V, hV, rfl⟩ := List.mem_map.mp hx
  exact turnAt_of_silent right i (by rw [turnStart_inactive (h V hV), h V hV])

theorem frameByte_of_noActive (h : ∀ V ∈ s.voices, V.active = false) (right : Bool) (i : Nat) :
    frameByte s right i = 0x00 := by
  rw [frameByte_eq_outByte, frameVoices_of_noActive h, frameSum_of_noActive h]
  decide

theorem mixframe_voices_of_noActive {t : State} (h : ∀ V ∈ s.voices, V.active = false)
    (hexec : exec .mixframe s = .next t) : t.voices = s.voices := by
  obtain ⟨b, rfl⟩ := mix_next hexec
  exact (List.map_congr_left fun V hV => voiceTurn_inactive _ _ _ (h V hV)).trans (List.map_id' _)

end Silence

end Machine

namespace Proofs

open Machine Safety

/-- Settles O35: the bytes by the laws of the store, the rest by what `MIXFRAME` writes. -/
theorem mixframeFillsTheFillHalf : Obligations.MixframeFillsTheFillHalf := by
  intro s hwf
  obtain ⟨t, ht⟩ : ∃ t, exec .mixframe s = .next t := ⟨_, rfl⟩
  refine ⟨t, ht, ?_, fun i hi => mixframe_left hwf ht hi, fun hstereo i hi => mixframe_right hwf ht hstereo hi,
    fun a hleft hright => mixframe_other ht hleft hright⟩
  obtain ⟨b, rfl⟩ := mix_next ht
  rfl

/-- Settles O36: the sample loop, from the voice after its envelope tick. -/
theorem voiceTurnPlaysUntilItEnds : Obligations.VoiceTurnPlaysUntilItEnds := by
  intro m c spf V W g r
  have hW : W = turnStart V := by simp only [W, turnStart, Bool.and_eq_true]
  have hg : g = effectiveVolume (turnStart V) := by simp only [g, hW, effectiveVolume]; rfl
  rw [hg, hW]
  exact ⟨rfl, voiceTurn_length .., fun i hi => playSamples_getElem? m c _ hi, playSamples_voice m c _ spf _⟩

/-- Settles O37: the frame of a turn, at the voice's own slot. -/
theorem mixframeVoiceFrame : Obligations.MixframeVoiceFrame := by
  intro s t k V W h hV hW
  obtain ⟨b, rfl⟩ := mix_next h
  simp only [List.getElem?_map, hV, Option.map_some, Option.some.injEq] at hW
  subst hW
  exact ⟨voiceTurn_frame .., voiceTurn_of_noEnvelope _ _ _, voiceTurn_inactive _ _ _⟩

/-- Settles O38: the truncated quotient, and what it is at the pans 0 and 64. -/
theorem applierProperties : Obligations.ApplierProperties := by
  intro V g val hlow hhigh hg hl hr
  refine ⟨rfl, tdiv_eq .., tdiv_eq .., fun hp => ?_, fun hp => ?_, fun hp => ?_, fun hp => ?_,
    contribution_neg g V val, fun stereo => contribution_inFullScale stereo hlow hhigh hg hl hr⟩
  · simp [contribution, hp]
  · simp [contribution, hp]
  · simpa [contribution, hp] using tdiv_mul_self (val * g)
  · simpa [contribution, hp] using tdiv_mul_self (val * g)

/-- Settles O39: the bounds of a turn, summed over the contributing voices. -/
theorem accumulatorsNeverOverflow : Obligations.AccumulatorsNeverOverflow := by
  intro s right i hs
  obtain ⟨hlow, hhigh⟩ := frameSum_bounds hs right i
  obtain ⟨⟨-, hnv⟩, -⟩ := hs.sizesOk
  exact ⟨abs_le.mpr ⟨by omega, by omega⟩, frameVoices_le s, by omega⟩

/-- Settles O40: `n` voices of gain 64 are at most one output step, so the accumulator is -128 to 127 of those. -/
theorem clampNeverChangesAFrame : Obligations.ClampNeverChangesAFrame := by
  intro s right i hs
  obtain ⟨hlow, hhigh⟩ := frameSum_bounds hs right i
  have hstep : (frameVoices s * 64 : Int) ≤ 2 ^ downscaleShift (frameVoices s) :=
    mod_cast le_two_pow_downscaleShift (frameVoices s)
  obtain ⟨hq, hq'⟩ := downscale_bounds (downscaleShift_pos _) (acc := frameSum s right i) (by linarith) (by linarith)
  exact ⟨hq, hq', outByte_toInt hq hq'⟩

/-- Settles O41: the least exponent of `ceilLog2`, and the floor of the shift. -/
theorem downscaleRoundsToNearest : Obligations.DownscaleRoundsToNearest := by
  refine ⟨fun n => ?_, fun sh acc q _ => asr_eq_iff _ q sh⟩
  obtain ⟨hle, hleast⟩ := ceilLog2_spec (max n 1)
  rw [downscaleShift, Nat.add_sub_cancel_left]
  exact ⟨Nat.le_add_right .., hle, fun k hk => Nat.add_le_add_left (hleast k hk) 6⟩

/-- Settles O42: no turn contributes, and the byte of an empty frame is 0. -/
theorem noActiveVoiceMixesSilence : Obligations.NoActiveVoiceMixesSilence := by
  intro s hwf hoff
  obtain ⟨t, ht⟩ : ∃ t, exec .mixframe s = .next t := ⟨_, rfl⟩
  have hnone : frameVoices s = 0 := frameVoices_of_noActive hoff
  refine ⟨hnone, by rw [hnone]; rfl, frameSum_of_noActive hoff, t, ht, mixframe_voices_of_noActive hoff ht,
    fun i hi => ⟨?_, fun hstereo => ?_⟩⟩
  · rw [mixframe_left hwf ht hi, frameByte_of_noActive hoff]
  · rw [mixframe_right hwf ht hstereo hi, frameByte_of_noActive hoff]

end Proofs

end Sys2Proof
end

section
/-! Proofs of the statements on the envelope (spec/43_envelope.md): the tick of each phase, its direction and its end
(R190 to R196), and what `NOTEON` and `NOTEOFF` write (R200 to R203). -/

namespace Sys2Proof

namespace Machine

/-! ### The tick of each phase (R191 to R195) -/

theorem eq_zero_iff_toNat_eq_zero {w : Nat} (x : BitVec w) : x = 0 ↔ x.toNat = 0 :=
  BitVec.toNat_inj.symm

section Tick

variable {V : Voice}

theorem envTick_of_attack (h : V.phase = .attack) :
    envTick V = if V.attack.toNat = 0 ∨ 255 ≤ V.level.toNat + 256 / V.attack.toNat
      then { V with level := 255, phase := .decay }
      else { V with level := BitVec.ofNat 8 (V.level.toNat + 256 / V.attack.toNat) } := by
  simp only [envTick, h, attackTick, eq_zero_iff_toNat_eq_zero, ite_or]

theorem envTick_of_decay_above (h : V.phase = .decay) (hlt : V.sustainLevel.toNat < V.level.toNat) :
    let d := max 1 ((V.level.toNat - V.sustainLevel.toNat) / V.decay.toNat)
    envTick V = if V.decay.toNat = 0 ∨ V.level.toNat - d ≤ V.sustainLevel.toNat
      then { V with level := V.sustainLevel, phase := .sustain }
      else { V with level := BitVec.ofNat 8 (V.level.toNat - d) } := by
  simp only [envTick, h, decayTick, eq_zero_iff_toNat_eq_zero, BitVec.le_def, Nat.not_le_of_lt hlt, if_false,
    ite_or, tsub_le_iff_right]

theorem envTick_of_decay_reached (h : V.phase = .decay) (hle : V.level.toNat ≤ V.sustainLevel.toNat) :
    envTick V = if V.decay.toNat = 0 then { V with level := V.sustainLevel, phase := .sustain }
      else { V with phase := .sustain } := by
  simp only [envTick, h, decayTick, eq_zero_iff_toNat_eq_zero, BitVec.le_def, if_pos hle]

theorem envTick_of_sustain (h : V.phase = .sustain) : envTick V = V := by
  simp only [envTick, h]

theorem releaseLevel_toNat (V : Voice) :
    (releaseLevel V).toNat =
      if V.release.toNat = 0 then 0 else V.level.toNat - max 1 (V.level.toNat / V.release.toNat) := by
  simp only [releaseLevel, eq_zero_iff_toNat_eq_zero]
  split
  · rfl
  · exact Nat.mod_eq_of_lt ((Nat.sub_le ..).trans_lt V.level.isLt)

theorem envTick_of_release (h : V.phase = .release) :
    let l := if V.release.toNat = 0 then 0 else V.level.toNat - max 1 (V.level.toNat / V.release.toNat)
    envTick V = if l = 0 then { V with level := 0, active := false } else { V with level := BitVec.ofNat 8 l } := by
  intro l
  have hl : (releaseLevel V).toNat = l := releaseLevel_toNat V
  rw [← hl, BitVec.ofNat_toNat, BitVec.setWidth_eq]
  simp only [envTick, h, releaseTick, eq_zero_iff_toNat_eq_zero]

/-! ### What a tick can do to the level (R196) -/

/-- An Attack tick ends the phase at level 255, or adds `256 / attack` to the level and stays below 255. -/
theorem envTick_attack_cases (h : V.phase = .attack) :
    envTick V = { V with level := 255, phase := .decay } ∨
    ∃ l : Byte, envTick V = { V with level := l } ∧ V.attack.toNat ≠ 0 ∧
      l.toNat = V.level.toNat + 256 / V.attack.toNat ∧ l.toNat < 255 := by
  rw [envTick_of_attack h]
  split
  · exact .inl rfl
  · rename_i hgo
    obtain ⟨hrate, hlt⟩ := not_or.mp hgo
    have hl : (BitVec.ofNat 8 (V.level.toNat + 256 / V.attack.toNat)).toNat =
        V.level.toNat + 256 / V.attack.toNat := Nat.mod_eq_of_lt (by omega)
    exact .inr ⟨_, rfl, hrate, hl, by omega⟩

/-- A Decay tick ends the phase at `sustainLevel`, or lowers the level and stays above `sustainLevel`. -/
theorem envTick_decay_cases (h : V.phase = .decay) (hge : V.sustainLevel.toNat ≤ V.level.toNat) :
    envTick V = { V with level := V.sustainLevel, phase := .sustain } ∨
    ∃ l : Byte, envTick V = { V with level := l } ∧ V.sustainLevel.toNat < l.toNat ∧ l.toNat < V.level.toNat := by
  obtain hlt | heq := Nat.lt_or_eq_of_le hge
  · rw [envTick_of_decay_above h hlt]
    split
    · exact .inl rfl
    · rename_i hgo
      refine .inr ⟨_, rfl, ?_⟩
      have := V.level.isLt
      rw [BitVec.toNat_ofNat, Nat.mod_eq_of_lt (by omega)]
      omega
  · rw [envTick_of_decay_reached h heq.ge, BitVec.eq_of_toNat_eq heq, ite_self]
    exact .inl rfl

/-- A Release tick ends the voice at level 0, or lowers the level and stays above 0. -/
theorem envTick_release_cases (h : V.phase = .release) :
    envTick V = { V with level := 0, active := false } ∨
    ∃ l : Byte, envTick V = { V with level := l } ∧ 0 < l.toNat ∧ l.toNat < V.level.toNat := by
  simp only [envTick, h, releaseTick]
  split
  · exact .inl rfl
  · rename_i hpos
    have hl := releaseLevel_toNat V
    rw [eq_zero_iff_toNat_eq_zero] at hpos
    refine .inr ⟨_, rfl, Nat.pos_of_ne_zero hpos, ?_⟩
    split at hl <;> omega

/-- An Attack with a rate above 256 has a step of 0 (R192). -/
theorem envTick_of_slow_attack (h : V.phase = .attack) (hrate : 256 < V.attack.toNat) (hlt : V.level.toNat < 255) :
    envTick V = V := by
  rw [envTick_of_attack h, Nat.div_eq_of_lt hrate, if_neg (by omega), Nat.add_zero, BitVec.ofNat_toNat,
    BitVec.setWidth_eq]

/-! ### The end of a phase (R192, R193, R195) -/

/-- A step that ends, or goes on with a smaller positive distance, ends within as many steps as the distance is. -/
theorem exists_iterate_of_decreasing {α : Type} {f : α → α} {going ended : α → Prop} {distance : α → Nat}
    (hstep : ∀ x, going x → ended (f x) ∨ going (f x) ∧ 0 < distance (f x) ∧ distance (f x) < distance x) :
    ∀ x, going x → ∃ k ≤ max 1 (distance x), ended (f^[k] x) := by
  intro x hx
  induction hd : distance x using Nat.strong_induction_on generalizing x with
  | _ d ih =>
    obtain hend | ⟨hgo, hpos, hlt⟩ := hstep x hx
    · exact ⟨1, Nat.le_max_left .., hend⟩
    · obtain ⟨k, hk, hend⟩ := ih _ (hd ▸ hlt) (f x) hgo rfl
      exact ⟨k + 1, by omega, hend⟩

theorem attack_ends (h : V.phase = .attack) (hrate : V.attack.toNat ≤ 256) :
    ∃ k ≤ max 1 (255 - V.level.toNat), (envTick^[k] V).phase = .decay ∧ (envTick^[k] V).level = 255 := by
  refine exists_iterate_of_decreasing (f := envTick) (ended := fun W => W.phase = .decay ∧ W.level = 255)
    (going := fun W => W.phase = .attack ∧ W.attack.toNat ≤ 256) (distance := fun W => 255 - W.level.toNat)
    (fun W hW => ?_) V ⟨h, hrate⟩
  obtain ⟨hphase, hW⟩ := hW
  obtain hend | ⟨l, hgo, hne, hl, hlt⟩ := envTick_attack_cases hphase
  · exact .inl (by simp [hend])
  · have hpos : 0 < 256 / W.attack.toNat := Nat.div_pos hW (Nat.pos_of_ne_zero hne)
    rw [hgo]
    exact .inr ⟨⟨hphase, hW⟩, by dsimp only; omega, by dsimp only; omega⟩

theorem decay_ends (h : V.phase = .decay) (hge : V.sustainLevel.toNat ≤ V.level.toNat) :
    ∃ k ≤ max 1 (V.level.toNat - V.sustainLevel.toNat),
      (envTick^[k] V).phase = .sustain ∧ (envTick^[k] V).level = V.sustainLevel := by
  refine exists_iterate_of_decreasing (f := envTick)
    (ended := fun W => W.phase = .sustain ∧ W.level = V.sustainLevel)
    (going := fun W => W.phase = .decay ∧ W.sustainLevel = V.sustainLevel ∧ W.sustainLevel.toNat ≤ W.level.toNat)
    (distance := fun W => W.level.toNat - V.sustainLevel.toNat) (fun W hW => ?_) V ⟨h, rfl, hge⟩
  obtain ⟨hphase, hsame, hW⟩ := hW
  obtain hend | ⟨l, hgo, habove, hbelow⟩ := envTick_decay_cases hphase hW
  · exact .inl (by simp [hend, hsame])
  · rw [hgo, ← hsame]
    exact .inr ⟨⟨hphase, rfl, Nat.le_of_lt habove⟩, Nat.sub_pos_of_lt habove, by dsimp only; omega⟩

theorem release_ends (h : V.phase = .release) :
    ∃ k ≤ max 1 V.level.toNat,
      (envTick^[k] V).level = 0 ∧ (envTick^[k] V).active = false ∧ (envTick^[k] V).phase = .release := by
  refine exists_iterate_of_decreasing (f := envTick)
    (ended := fun W => W.level = 0 ∧ W.active = false ∧ W.phase = .release)
    (going := fun W => W.phase = .release) (distance := fun W => W.level.toNat) (fun W hW => ?_) V h
  obtain hend | ⟨l, hgo, hpos, hbelow⟩ := envTick_release_cases hW
  · exact .inl (by simp [hend, hW])
  · rw [hgo]
    exact .inr ⟨hW, hpos, hbelow⟩

end Tick

/-! ### The pitch of a note (R201, R202) -/

theorem semitones_succ (ratio n r : Nat) : semitones ratio (n + 1) r = semitones ratio n r * ratio / 65536 := by
  induction n generalizing r with
  | zero => rfl
  | succ n ih => exact ih (r * ratio / 2 ^ 16)

section Pitch

variable (c : Config.Consts) (native : Nat) {key : Nat}

theorem noteRate_of_ge (h : 60 ≤ key) : noteRate c native key = semitones c.semiUp (min key 127 - 60) native := by
  unfold noteRate
  obtain rfl | hlt := Nat.eq_or_lt_of_le h
  · rfl
  · exact if_pos (by omega)

theorem noteRate_of_le (h : key ≤ 60) : noteRate c native key = semitones c.semiDown (60 - key) native := by
  have hmin : min key 127 = key := by omega
  simp only [noteRate, hmin, if_neg (Nat.not_lt_of_le h)]

end Pitch

/-- The increment of a note, 0 stored as 1 (R25, R202). -/
theorem incrementOf_ofNat {n : Nat} (h : n < 2 ^ 32) : incrementOf (BitVec.ofNat 32 n) = BitVec.ofNat 32 (max 1 n) := by
  have hzero : BitVec.ofNat 32 n = 0 ↔ n = 0 := by
    rw [eq_zero_iff_toNat_eq_zero, BitVec.toNat_ofNat, Nat.mod_eq_of_lt h]
  obtain rfl | hpos := Nat.eq_zero_or_pos n
  · rfl
  · rw [incrementOf, if_neg (hzero.not.mpr hpos.ne'), Nat.max_eq_right hpos]

theorem incrementOf_noteIncrement (c : Config.Consts) (rate : Nat) :
    incrementOf (noteIncrement c rate) =
      BitVec.ofNat 32 (max 1 (min (rate * 4096 / c.mixRate) (2 ^ 32 - 1))) :=
  incrementOf_ofNat (by omega)

/-! ### `NOTEON` and `NOTEOFF` on the voice table (R200, R203) -/

section Notes

variable {s : State} {slot instr key vel : Byte}

theorem exec_noteon_of_noInstrument (h : s.ni ≤ instr.toNat) : exec (.noteon slot instr key vel) s = .next s := by
  have hnone : s.instruments[instr.toNat]? = none := List.getElem?_eq_none h
  simp only [exec, execNoteon, hnone, ite_self]

theorem exec_noteon_of_absent {I : Instrument} (hI : s.instruments[instr.toNat]? = some I) (h : I.nsamples = 0) :
    exec (.noteon slot instr key vel) s = .next s := by
  simp only [exec, execNoteon, hI, if_pos h, ite_self]

/-- `NOTEON` of a present instrument writes one whole voice record (R200). -/
theorem exec_noteon_of_present {I : Instrument} (hI : s.instruments[instr.toNat]? = some I) (h : I.nsamples ≠ 0)
    (hslot : slot.toNat < s.nv) :
    exec (.noteon slot instr key vel) s =
      .next { s with voices := s.voices.set slot.toNat (noteStarted s.consts I key vel) } := by
  simp only [exec, execNoteon, hI, if_neg h, if_neg (Nat.not_le_of_lt hslot), State.modifyVoice, modify_const]
  rfl

/-- `NOTEOFF` on a slot that holds a voice replaces that voice by the released one (R203). -/
theorem exec_noteoff_of_voice {V : Voice} (hV : s.voices[slot.toNat]? = some V) :
    exec (.noteoff slot) s = .next { s with voices := s.voices.set slot.toNat (released V) } := by
  rw [exec_noteoff, State.modifyVoice, modify_of_getElem? _ hV]
  rfl

end Notes

end Machine

namespace Proofs

open Machine

/-- Settles O29: in each phase a tick ends it or brings the level nearer to its end, and a level has 256 values. -/
theorem envelopePhasesEnd : Obligations.EnvelopePhasesEnd := by
  refine fun V => ⟨fun h hrate => ?attack, decay_ends, fun h => ?release, fun h hrate hlt => ?slow⟩
  case attack =>
    obtain ⟨k, hk, hend⟩ := attack_ends h hrate
    exact ⟨k, by omega, hend⟩
  case release =>
    obtain ⟨k, hk, hend⟩ := release_ends h
    exact ⟨k, by have := V.level.isLt; omega, hend⟩
  case slow => exact Function.iterate_fixed (envTick_of_slow_attack h hrate hlt)

/-- Settles O28: what a tick can do to the level, phase by phase. -/
theorem envelopeLevelMonotone : Obligations.EnvelopeLevelMonotone := by
  refine fun V => ⟨fun h => ?attack, fun h hge => ?decay, fun h => by rw [envTick_of_sustain h], fun h => ?release,
    envTick_frame V⟩
  case attack =>
    obtain hend | ⟨l, hgo, -, hl, -⟩ := envTick_attack_cases h
    · rw [hend]
      exact Nat.le_of_lt_succ V.level.isLt
    · rw [hgo]
      exact hl ▸ Nat.le_add_right ..
  case decay =>
    obtain hend | ⟨l, hgo, habove, hbelow⟩ := envTick_decay_cases h hge
    · rw [hend]
      exact ⟨hge, Nat.le_refl _⟩
    · rw [hgo]
      exact ⟨Nat.le_of_lt hbelow, Nat.le_of_lt habove⟩
  case release =>
    obtain hend | ⟨l, hgo, -, hbelow⟩ := envTick_release_cases h
    · rw [hend]
      exact Nat.zero_le _
    · rw [hgo]
      exact Nat.le_of_lt hbelow

/-- Settles O25: on either side of key 60 the rate is a number of semitone steps, one more for the next key. -/
theorem noteRateIteratesSemitones : Obligations.NoteRateIteratesSemitones := by
  refine fun c native key => ⟨rfl, fun hge hlt => ?up, fun hlt => ?down, fun hge => ?top⟩
  case up =>
    have hnext : min (key + 1) 127 - 60 = (min key 127 - 60) + 1 := by omega
    rw [noteRate_of_ge c native hge, noteRate_of_ge c native (by omega), hnext, semitones_succ]
  case down =>
    have hnext : 60 - key = (60 - (key + 1)) + 1 := by omega
    rw [noteRate_of_le c native (by omega), noteRate_of_le c native (by omega), hnext, semitones_succ]
  case top =>
    rw [noteRate_of_ge c native (by omega), noteRate_of_ge c native (by omega), Nat.min_eq_right hge, Nat.min_self]

/-- Settles O24: the no-op cases, and the one record that `NOTEON` writes. -/
theorem noteonStartsNote : Obligations.NoteonStartsNote := by
  refine fun s slot instr key vel => ⟨?range, fun I hI => ⟨exec_noteon_of_absent hI, fun hne hslot => ?starts⟩⟩
  case range =>
    rintro (hslot | hinstr)
    · exact exec_of_slotOutOfRange hslot
    · exact exec_noteon_of_noInstrument hinstr
  case starts =>
    rw [exec_noteon_of_present hI hne hslot, noteStarted, incrementOf_noteIncrement]
    rfl

/-- Settles O26: the one update of `NOTEOFF`, at the voice that is there. -/
theorem noteoffForcesRelease : Obligations.NoteoffForcesRelease :=
  fun _ _ => ⟨fun hslot => exec_of_slotOutOfRange hslot, fun _ hV => exec_noteoff_of_voice hV⟩

/-- Settles O27: one equation for each phase, the arm of Decay that is not reachable included. -/
theorem envelopeTickPerPhase : Obligations.EnvelopeTickPerPhase := fun _ =>
  ⟨envTick_of_attack, envTick_of_decay_above, envTick_of_decay_reached, envTick_of_sustain, envTick_of_release⟩

end Proofs

end Sys2Proof
end

section
/-! Proofs of the statements on the swap (spec/44_swap.md): what a `TICK` changes and what it presents (R221). -/

namespace Sys2Proof

namespace Machine

/-- The base addresses of the half now live, as R65 counts them. -/
theorem presentOfHalf_eq (spf : Nat) (h : Bool) :
    presentOfHalf spf h = ⟨h, h.toNat * spf, 2 * spf + h.toNat * spf⟩ := by
  simp [presentOfHalf, outAddr]

/-- The swap writes `live` and appends one Present, and is the identity on every other field (R221). -/
theorem tickEvent_eq (s : State) :
    tickEvent s =
      { s with live := !s.live, presented := s.presented ++ [presentOfHalf s.consts.spf (!s.live)] } := rfl

end Machine

namespace Proofs

open Machine

/-- Settles O9: the step is the swap, with the numbers of R65 in its Present. -/
theorem tickFlipsAndPresents : Obligations.TickFlipsAndPresents := by
  intro s rest hin
  rw [step_of_tick hin, tickEvent_eq, presentOfHalf_eq]
  rfl

end Proofs

end Sys2Proof
end

section
/-! Proofs of the statements on the positional mapper (spec/45_positional.md): the pan law (R241), the distance law
(R242), the facing (R243, R244), the azimuth bucket (R251), the pair through `MIXFRAME` (R252), and what `UPDPOS` writes
in either mode (R240, R247, R250). -/

namespace Sys2Proof

namespace Machine

open Safety

/-! ### The clamped offset on a scale of `n` parts (R241, R251) -/

theorem clamp_of_le_low {v lo hi : Int} (hle : lo ≤ hi) (h : v ≤ lo) : clamp v lo hi = lo := by
  unfold clamp
  split_ifs <;> omega

theorem clamp_of_high_le {v lo hi : Int} (hle : lo ≤ hi) (h : hi ≤ v) : clamp v lo hi = hi := by
  unfold clamp
  split_ifs <;> omega

theorem clamp_mono {v w lo hi : Int} (hle : lo ≤ hi) (h : v ≤ w) : clamp v lo hi ≤ clamp w lo hi := by
  unfold clamp
  split_ifs <;> omega

/-- What the pan law and the bucket share: the offset from the left extreme, in `n`-ths of the whole width `2h`. -/
def scaledOffset (d : Int) (h n : Nat) : Nat := ((clamp d (-h) h + h) * n / (2 * h)).toNat

theorem panRightOf_eq_scaledOffset (dx : Int) (hx : Nat) : panRightOf dx hx = scaledOffset dx hx 64 := rfl

theorem azimuthBucket_eq_scaledOffset (dx : Int) (hx nb : Nat) :
    azimuthBucket dx hx nb = min (scaledOffset dx hx nb) (nb - 1) := rfl

section ScaledOffset

variable {d : Int} {h : Nat} (n : Nat)

theorem scaledOffset_of_inside (hlow : -h ≤ d) (hhigh : d ≤ h) :
    (scaledOffset d h n : Int) = (d + h) * n / (2 * h) := by
  have hnonneg : 0 ≤ (d + h) * n / (2 * h) := Int.ediv_nonneg (Int.mul_nonneg (by omega) (by omega)) (by omega)
  rw [scaledOffset, clamp_of_mem hlow hhigh, Int.toNat_of_nonneg hnonneg]

theorem scaledOffset_of_left (hd : d ≤ -h) : scaledOffset d h n = 0 := by
  rw [scaledOffset, clamp_of_le_low (by omega) hd]
  simp

theorem scaledOffset_of_right (hpos : 1 ≤ h) (hd : h ≤ d) : scaledOffset d h n = n := by
  have hwidth : ((h : Int) + h) * n / (2 * h) = n := by
    rw [← Int.two_mul]
    exact Int.mul_ediv_cancel_left _ (by omega)
  rw [scaledOffset, clamp_of_high_le (by omega) hd, hwidth, Int.toNat_natCast]

theorem scaledOffset_of_center (hpos : 1 ≤ h) : scaledOffset 0 h n = n / 2 := by
  have hhalf : ((0 : Int) + h) * n / (2 * h) = (n / 2 : Nat) := by
    rw [Int.zero_add, Int.mul_comm 2]
    exact (Int.mul_ediv_mul_of_pos _ _ (by omega)).trans rfl
  rw [scaledOffset, clamp_of_mem (by omega) (by omega), hhalf, Int.toNat_natCast]

theorem scaledOffset_mono {d' : Int} (hpos : 1 ≤ h) (hle : d ≤ d') : scaledOffset d h n ≤ scaledOffset d' h n := by
  have hclamp : clamp d (-h) h + h ≤ clamp d' (-h) h + h := Int.add_le_add_right (clamp_mono (by omega) hle) _
  exact Int.toNat_le_toNat (Int.ediv_le_ediv (by omega) (Int.mul_le_mul_of_nonneg_right hclamp (by omega)))

end ScaledOffset

/-! ### The distance law (R242) -/

/-- `maxVol * (1 - r)` rounded down: the volume at the normalized distance `r` (R242). -/
def volumeAt (maxVol : Nat) (r : ℚ) : Int := ⌊(maxVol : ℚ) * (1 - r)⌋

theorem volumeAt_antitone (maxVol : Nat) : Antitone (volumeAt maxVol) := fun _ _ hle =>
  Int.floor_mono (mul_le_mul_of_nonneg_left (sub_le_sub_left hle 1) (Nat.cast_nonneg maxVol))

/-- One axis of the integer law is the volume at the axis's own normalized distance. -/
theorem axisVolume_eq_volumeAt (d : Int) {h : Nat} (maxVol : Nat) (hpos : 1 ≤ h) :
    (axisVolume d h maxVol : Int) = volumeAt maxVol (min |(d : ℚ)| h / h) := by
  have hne : (h : ℚ) ≠ 0 := by positivity
  have hclamp : min |(d : ℚ)| h = (min d.natAbs h : Nat) := by
    rw [Nat.cast_min, Nat.cast_natAbs, Int.cast_abs]
  have hquot : (maxVol : ℚ) * (1 - (min d.natAbs h : Nat) / h) = (maxVol * (h - min d.natAbs h) : Nat) / (h : Nat) := by
    rw [Nat.cast_mul, Nat.cast_sub (Nat.min_le_right ..)]
    field_simp
  rw [volumeAt, hclamp, hquot, Rat.floor_natCast_div_natCast, axisVolume, Int.natCast_ediv]

theorem axisVolume_of_center {h : Nat} (maxVol : Nat) (hpos : 1 ≤ h) : axisVolume 0 h maxVol = maxVol := by
  simp only [axisVolume, Int.natAbs_zero, Nat.zero_min, Nat.sub_zero]
  exact Nat.mul_div_cancel _ hpos

theorem axisVolume_of_outside {d : Int} {h : Nat} (maxVol : Nat) (hd : h ≤ d.natAbs) : axisVolume d h maxVol = 0 := by
  simp only [axisVolume, Nat.min_eq_right hd, Nat.sub_self, Nat.mul_zero, Nat.zero_div]

/-- The lesser of the two axes' volumes is the volume at the greater of their distances: a max-norm. -/
theorem distanceVolume_eq_volumeAt (dx dy : Int) {hx hy : Nat} (maxVol : Nat) (hposx : 1 ≤ hx) (hposy : 1 ≤ hy) :
    (distanceVolume dx dy hx hy maxVol : Int) =
      volumeAt maxVol (max (min |(dx : ℚ)| hx / hx) (min |(dy : ℚ)| hy / hy)) := by
  rw [(volumeAt_antitone maxVol).map_max, ← axisVolume_eq_volumeAt dx maxVol hposx,
    ← axisVolume_eq_volumeAt dy maxVol hposy, distanceVolume, Nat.cast_min]

/-! ### The facing and its hysteresis (R243, R244) -/

section Facing

variable {S : Source} {y : Half16}

/-- `Facing(s, y)` flips exactly when `y` crosses the threshold on the side not selected (R243). -/
theorem flips_iff : flips S y = true ↔ Crosses S y := by
  cases hf : S.facing <;> simp [flips, Crosses, hf]

theorem flips_of_crosses (h : Crosses S y) : flips S y = true := flips_iff.mpr h

theorem flips_of_not_crosses (h : ¬ Crosses S y) : flips S y = false :=
  Bool.eq_false_of_not_eq_true (flips_iff.not.mpr h)

theorem facingAfter_of_crosses (h : Crosses S y) : facingAfter S y = S.facing.other :=
  if_pos (flips_of_crosses h)

theorem facingAfter_of_not_crosses (h : ¬ Crosses S y) : facingAfter S y = S.facing := by
  simp [facingAfter, flips_of_not_crosses h]

/-- The only facing that is not `f` is the other one. -/
theorem Facing.ne_iff_eq_other {f g : Facing} : g ≠ f ↔ g = f.other := by
  cases f <;> cases g <;> decide

theorem Facing.other_eq_ite (f : Facing) : f.other = if f = .front then .back else .front := by
  cases f <;> rfl

theorem crosses_of_facingAfter_ne (h : facingAfter S y ≠ S.facing) : Crosses S y :=
  Decidable.of_not_not fun hstay => h (facingAfter_of_not_crosses hstay)

/-- Neither threshold is crossed in the dead zone (R244). -/
theorem not_crosses_of_deadZone (hlow : S.swFront.toInt ≤ y.toInt) (hhigh : y.toInt ≤ S.swBack.toInt) :
    ¬ Crosses S y := by
  rintro (⟨-, hcross⟩ | ⟨-, hcross⟩) <;> omega

/-- A facing that changes on a crossing and on nothing else is the one after `Facing(s, y)`. -/
theorem eq_facingAfter {f : Facing} (hcross : Crosses S y → f ≠ S.facing) (hstay : ¬ Crosses S y → f = S.facing) :
    f = facingAfter S y := by
  by_cases h : Crosses S y
  · rw [facingAfter_of_crosses h, ← Facing.ne_iff_eq_other]
    exact hcross h
  · rw [facingAfter_of_not_crosses h, hstay h]

end Facing

/-- A command keeps the facing of a source, or it is the `UPDPOS` of that source, which is enabled (R243). -/
theorem exec_facing {i : Instr} {s t : State} {k : Nat} {S T : Source} (h : exec i s = .next t)
    (hS : s.sources[k]? = some S) (hT : t.sources[k]? = some T) :
    T.facing = S.facing ∨
      ∃ slot x y, i = .updpos slot x y ∧ slot.toNat = k ∧ S.en = true ∧ T.facing = facingAfter S y := by
  have unwritten (hsrc : t.sources = s.sources) : T.facing = S.facing := by
    cases hS.symm.trans (hsrc ▸ hT)
    rfl
  cases i with
  | trig | stop | setgain | setrate | noteon | noteoff | mixframe =>
    exact .inl (unwritten (exec_sources (by nofun) (by nofun) h))
  | wrreg =>
    obtain ⟨-, -, hfacing, -⟩ := wrreg_sameSourceState h hS hT
    exact .inl hfacing
  | updpos slot x y =>
    obtain rfl | ⟨U, vs, U', hU, hen, rfl, -, hU'⟩ := upd_next h
    · exact .inl (unwritten rfl)
    · obtain hold | ⟨rfl, rfl⟩ := getElem?_set_cases hT
      · cases hS.symm.trans hold
        exact .inl rfl
      · cases hS.symm.trans hU
        refine .inr ⟨slot, x, y, rfl, rfl, hen, ?_⟩
        obtain rfl | rfl := hU' <;> rfl

/-! ### Voices with one cursor (R252) -/

/-- Two voices have one cursor: what `Advance` reads is the same in both (R145). -/
def SameCursor (V W : Voice) : Prop :=
  V.position = W.position ∧ V.active = W.active ∧ V.increment = W.increment ∧ V.length = W.length ∧
    V.loopLength = W.loopLength

/-- `Advance` reads the cursor only, so voices with one cursor advance alike. -/
theorem sameCursor_advance {V W : Voice} (h : SameCursor V W) : SameCursor (advance V) (advance W) := by
  obtain ⟨hpos, hact, hinc, hlen, hloop⟩ := h
  simp only [SameCursor, advance, hpos, hinc, hlen, hloop]
  split_ifs
  · exact ⟨rfl, hact, rfl, rfl, rfl⟩
  · exact ⟨rfl, rfl, rfl, rfl, rfl⟩
  · exact ⟨rfl, hact, rfl, rfl, rfl⟩

/-- The sample loop advances both voices equally often, whatever they play and how loud. -/
theorem sameCursor_playSamples (m : List Host.Cell) (c : Ctrl) (g g' k : Nat) {V W : Voice} (h : SameCursor V W) :
    SameCursor (playSamples m c g k V).1 (playSamples m c g' k W).1 := by
  induction k generalizing V W with
  | zero => exact h
  | succ k ih =>
    have ⟨_, hact, _⟩ := h
    by_cases hV : V.active = true
    · rw [playSamples_active m c g k hV, playSamples_active m c g' k (hact ▸ hV)]
      exact ih (sameCursor_advance h)
    · have hoff : V.active = false := Bool.eq_false_of_not_eq_true hV
      rw [playSamples_inactive m c g _ hoff, playSamples_inactive m c g' _ (hact ▸ hoff)]
      exact h

/-- Without an envelope a turn is the sample loop. -/
theorem sameCursor_voiceTurn (m : List Host.Cell) (c : Ctrl) (spf : Nat) {V W : Voice} (hV : V.envEn = false)
    (hW : W.envEn = false) (h : SameCursor V W) :
    SameCursor (voiceTurn m c spf V).1 (voiceTurn m c spf W).1 := by
  simp only [voiceTurn, turnStart_of_noEnvelope hV, turnStart_of_noEnvelope hW]
  exact sameCursor_playSamples _ _ _ _ _ h

/-- `MIXFRAME` leaves in a slot the voice after its turn (R161). -/
theorem mixframe_voice {s t : State} {k : Nat} {V W : Voice} (h : exec .mixframe s = .next t)
    (hV : s.voices[k]? = some V) (hW : t.voices[k]? = some W) :
    W = (voiceTurn s.samples s.ctrl s.consts.spf V).1 := by
  obtain ⟨b, rfl⟩ := mix_next h
  simp only [List.getElem?_map, hV, Option.map_some, Option.some.injEq] at hW
  exact hW.symm

/-! ### The two modes on the state (R247, R250) -/

theorem sampleSet_eq (S : Source) (f : Facing) :
    sampleSet S f =
      (if f = .front then S.fBase else S.bBase, if f = .front then S.fLen else S.bLen,
        if f = .front then S.fLoop else S.bLoop, if f = .front then S.fInc else S.bInc) := by
  cases f <;> rfl

section Modes

variable (S : Source) (vol pl pr : Gain) (s : State)

/-- Synthetic mode with a flip is `Trigger` on the set of the facing (R247). -/
theorem synthetic_of_flip :
    synthetic S vol pl pr true s = { s with
      voices := if (sampleSet S S.facing).2.1 = 0 then s.voices
        else s.voices.set S.vA.toNat (triggered (sampleSet S S.facing).1 0 (sampleSet S S.facing).2.1
          (sampleSet S S.facing).2.2.1 (sampleSet S S.facing).2.2.2 vol pl pr) } :=
  trigger_eq ..

/-- Synthetic mode without a flip is one refresh of the voice: `SetGains` and `SetRate` in one (R247). -/
theorem synthetic_of_noFlip :
    synthetic S vol pl pr false s = { s with
      voices := s.voices.modify S.vA.toNat fun V => { V with
        volume := vol, panLeft := pl, panRight := pr, increment := incrementOf (sampleSet S S.facing).2.2.2 } } := by
  simp only [synthetic, Bool.false_eq_true, if_false, setRate_eq, setGains_eq, modify_modify]

variable {S} {dx : Int} {flip : Bool} {bk : Nat}

theorem bucketChanged_iff :
    bucketChanged S bk flip = true ↔ bk ≠ S.bucket.toNat ∨ (S.fbSel = true ∧ flip = true) := by
  simp [bucketChanged]

theorem tableIndex_eq (S : Source) (bk : Nat) :
    tableIndex S bk = S.lutBase.toNat + (if S.fbSel = true ∧ S.facing = .back then S.nb.toNat else 0) + bk := by
  simp [tableIndex]

variable (k : Nat)

/-- LUT mode without a change refreshes the gains of the pair (R250). -/
theorem lookup_of_unchanged (h : ¬ bucketChanged S (azimuthBucket dx S.hx.toNat S.nb.toNat) flip = true) :
    lookup k S dx vol flip s = { s with
      voices := (s.voices.modify S.vA.toNat fun V => { V with volume := vol, panLeft := 64, panRight := 0 }).modify
        S.vB.toNat fun V => { V with volume := vol, panLeft := 0, panRight := 64 } } := by
  rw [lookup, if_neg h, setGains_eq, setGains_eq]

variable (h : bucketChanged S (azimuthBucket dx S.hx.toNat S.nb.toNat) flip = true)

include h

/-- LUT mode with a change and no entry writes the bucket only (R250). -/
theorem lookup_of_noEntry (he : s.lut[tableIndex S (azimuthBucket dx S.hx.toNat S.nb.toNat)]? = none) :
    lookup k S dx vol flip s =
      s.modifySource k fun T => { T with bucket := BitVec.ofNat 8 (azimuthBucket dx S.hx.toNat S.nb.toNat) } := by
  simp only [lookup, if_pos h, he]

/-- LUT mode with a change and an entry triggers the pair, both on the front set's length (R250, R252). -/
theorem lookup_of_entry {e : LutEntry}
    (he : s.lut[tableIndex S (azimuthBucket dx S.hx.toNat S.nb.toNat)]? = some e) :
    lookup k S dx vol flip s = { s with
      sources := s.sources.modify k fun T =>
        { T with bucket := BitVec.ofNat 8 (azimuthBucket dx S.hx.toNat S.nb.toNat) }
      voices := if S.fLen = 0 then s.voices
        else (s.voices.set S.vA.toNat (triggered e.baseL 0 S.fLen S.fLoop S.fInc vol 64 0)).set
          S.vB.toNat (triggered e.baseR 0 S.fLen S.fLoop S.fInc vol 0 64) } := by
  simp only [lookup, if_pos h, he, trigger_eq]
  split <;> rfl

end Modes

/-! ### `UPDPOS` on the state (R240) -/

/-- An update of a record just written is one write of the updated record (R240, R250). -/
theorem set_modify {α : Type} (l : List α) (i : Nat) (x : α) (f : α → α) : (l.set i x).modify i f = l.set i (f x) := by
  rw [← modify_const, modify_modify, modify_const]

/-- Without an enabled source at the index `UPDPOS` does nothing (R240, corner cases a and b). -/
theorem exec_updpos_of_disabled {s : State} {slot : Byte} {x y : Half16}
    (h : ∀ S, s.sources[slot.toNat]? = some S → S.en = false) : exec (.updpos slot x y) s = .next s := by
  simp only [exec, execUpdpos]
  split
  · rfl
  · rename_i S hS
    rw [if_neg (by simp [h S hS])]

section Updpos

variable {s : State} {slot : Byte} {x y : Half16} {S : Source} (hS : s.sources[slot.toNat]? = some S)
  (hen : S.en = true)

include hS hen

/-- `UPDPOS` in synthetic mode: the source moves, then its voice is set (R240, R247). -/
theorem exec_updpos_synthetic (hmode : S.lutMode = false) :
    exec (.updpos slot x y) s = .next (synthetic (moved S x y) (positionVolume S x y)
      (BitVec.ofNat 7 (panLeftOf (offsetX S x) S.hx.toNat)) (BitVec.ofNat 7 (panRightOf (offsetX S x) S.hx.toNat))
      (flips S y) (s.setSources (s.sources.set slot.toNat (moved S x y)))) := by
  simp only [exec, execUpdpos, hS, if_pos hen, hmode, Bool.false_eq_true, if_false, State.modifySource, modify_const]

/-- `UPDPOS` in LUT mode: the source moves, then its pair is looked up (R240, R250). -/
theorem exec_updpos_lut (hmode : S.lutMode = true) :
    exec (.updpos slot x y) s = .next (lookup slot.toNat (moved S x y) (offsetX S x) (positionVolume S x y)
      (flips S y) (s.setSources (s.sources.set slot.toNat (moved S x y)))) := by
  simp only [exec, execUpdpos, hS, if_pos hen, if_pos hmode, State.modifySource, modify_const]

end Updpos

end Machine

namespace Proofs

open Machine Safety

/-- Settles O47: the pan law is the clamped offset in 64 parts. -/
theorem panIsLinearCrossfade : Obligations.PanIsLinearCrossfade := by
  intro dx hx hpos
  simp only [panRightOf_eq_scaledOffset]
  exact ⟨Nat.sub_add_cancel (panRightOf_le dx hpos), scaledOffset_of_center 64 hpos, scaledOffset_of_left 64,
    scaledOffset_of_right 64 hpos, scaledOffset_of_inside 64, fun _ => scaledOffset_mono 64 hpos⟩

/-- Settles O48: the volume falls with the normalized distance, so the lesser volume is at the greater distance. -/
theorem distanceIsChebyshev : Obligations.DistanceIsChebyshev := by
  refine fun dx dy hx hy maxVol hposx hposy =>
    ⟨distanceVolume_eq_volumeAt dx dy maxVol hposx hposy, rfl, ?center, ?edge⟩
  case center =>
    rw [distanceVolume, axisVolume_of_center maxVol hposx, axisVolume_of_center maxVol hposy, Nat.min_self]
  case edge =>
    rintro (hdx | hdy)
    · rw [distanceVolume, axisVolume_of_outside maxVol hdx, Nat.zero_min]
    · rw [distanceVolume, axisVolume_of_outside maxVol hdy, Nat.min_zero]

/-- Settles O49: only the `UPDPOS` of a source can write its facing, and that flips it on a crossing only. -/
theorem facingHasHysteresis : Obligations.FacingHasHysteresis := by
  refine fun i s t k S T h hS hT => ⟨fun hne => ?changed, fun slot x y hi hlow hhigh => ?deadZone⟩
  case changed =>
    obtain hkept | ⟨slot, x, y, hi, hslot, hen, hfacing⟩ := exec_facing h hS hT
    · exact absurd hkept hne
    · exact ⟨slot, x, y, hi, hslot, hen, crosses_of_facingAfter_ne (hfacing ▸ hne)⟩
  case deadZone =>
    obtain hkept | ⟨slot', x', y', hi', -, -, hfacing⟩ := exec_facing h hS hT
    · exact hkept
    · cases hi.symm.trans hi'
      rw [hfacing, facingAfter_of_not_crosses (not_crosses_of_deadZone hlow hhigh)]

/-- Settles O50: the bucket is the clamped offset in `nb` parts, the right extreme counted to the last of them. -/
theorem azimuthBucketInRange : Obligations.AzimuthBucketInRange := by
  intro dx hx nb hpos hnb hnb'
  have hlt : azimuthBucket dx hx nb < nb := azimuthBucket_lt dx hx hnb
  refine ⟨hlt, fun hlow hhigh => ?inside, fun S flip hnone => ?firstLookup, fun hleft => ?left, fun hright => ?right,
    ?center, by omega⟩
  case inside =>
    rw [azimuthBucket_eq_scaledOffset, Nat.cast_min, scaledOffset_of_inside nb hlow hhigh, Nat.cast_pred hnb]
  case firstLookup =>
    have hbucket : S.bucket.toNat = 255 := by rw [hnone]; rfl
    exact bucketChanged_iff.mpr (.inl (by omega))
  case left => rw [azimuthBucket_eq_scaledOffset, scaledOffset_of_left nb hleft, Nat.zero_min]
  case right =>
    rw [azimuthBucket_eq_scaledOffset, scaledOffset_of_right nb hpos hright]
    exact Nat.min_eq_right (Nat.sub_le ..)
  case center =>
    rw [azimuthBucket_eq_scaledOffset, scaledOffset_of_center nb hpos]
    omega

/-- Settles O51: both turns are the sample loop, which keeps two voices with one cursor at one cursor. -/
theorem pairStaysPhaseLocked : Obligations.PairStaysPhaseLocked := by
  intro s t a b A B A' B' h hA hB hA' hB' henvA henvB hactive hposition hincrement hlength hloop
  have hpair : SameCursor A B := ⟨hposition, hactive, hincrement, hlength, hloop⟩
  rw [mixframe_voice h hA hA', mixframe_voice h hB hB']
  exact sameCursor_voiceTurn _ _ _ henvA henvB hpair

/-- Settles O44: no source is there, or it is disabled. -/
theorem updposOfDisabledSourceIsNoOp : Obligations.UpdposOfDisabledSourceIsNoOp :=
  fun _ _ _ _ => exec_updpos_of_disabled

/-- Settles O45: a crossing is a flip, and a flip is a `Trigger` on the set of the other facing. -/
theorem updposSyntheticMode : Obligations.UpdposSyntheticMode := by
  refine fun s slot x y S hS hen hmode => ⟨fun hstay => ?refresh, fun hcross => ?retrigger⟩
  case refresh =>
    have hT : moved S x y = { S with x := x, y := y } := by rw [moved, facingAfter_of_not_crosses hstay]
    rw [exec_updpos_synthetic hS hen hmode, flips_of_not_crosses hstay, synthetic_of_noFlip, hT, sampleSet_eq]
    rfl
  case retrigger =>
    have hT : moved S x y = { S with x := x, y := y, facing := if S.facing = .front then .back else .front } := by
      rw [moved, facingAfter_of_crosses hcross, Facing.other_eq_ite]
    rw [exec_updpos_synthetic hS hen hmode, flips_of_crosses hcross, synthetic_of_flip, hT, sampleSet_eq]
    rfl

/-- Settles O46: a change of bucket, or with `FBSEL` a crossing, is what looks the table up. -/
theorem updposLutMode : Obligations.UpdposLutMode := by
  intro s slot x y S hS hen hmode dx dy vol bk f hcross hstay e
  obtain rfl : f = facingAfter S y := eq_facingAfter hcross hstay
  have hrun : exec (.updpos slot x y) s = .next (lookup slot.toNat (moved S x y) dx vol (flips S y)
      (s.setSources (s.sources.set slot.toNat (moved S x y)))) := exec_updpos_lut hS hen hmode
  have hchanged : bucketChanged (moved S x y) bk (flips S y) = true ↔
      bk ≠ S.bucket.toNat ∨ (S.fbSel = true ∧ Crosses S y) := by rw [bucketChanged_iff, flips_iff]; rfl
  have hindex : tableIndex (moved S x y) bk = e := tableIndex_eq (moved S x y) bk
  refine ⟨fun hbk hkept => ?refresh, fun hchange => ⟨fun hnothing => ?untriggered, fun E hE hlen => ?pair⟩⟩
  case refresh =>
    have hsame : ¬ bucketChanged (moved S x y) bk (flips S y) = true := by
      rw [hchanged]
      rintro (hbk' | ⟨hsel, hcrossed⟩)
      · exact hbk' hbk
      · exact hkept hsel hcrossed
    rw [hrun, lookup_of_unchanged _ _ _ hsame]
    rfl
  case untriggered =>
    cases hE : s.lut[e]? with
    | none =>
      rw [hrun, lookup_of_noEntry _ _ _ (hchanged.mpr hchange) (hindex ▸ hE), State.modifySource,
        State.setSources_sources, set_modify]
      rfl
    | some E =>
      obtain ⟨hlt, -⟩ := List.getElem?_eq_some_iff.mp hE
      have hlen : (moved S x y).fLen = 0 := hnothing.resolve_left (Nat.not_le_of_lt hlt)
      rw [hrun, lookup_of_entry _ _ _ (hchanged.mpr hchange) (hindex ▸ hE), State.setSources_sources, set_modify,
        if_pos hlen]
      rfl
  case pair =>
    have hlen' : (moved S x y).fLen ≠ 0 := hlen
    rw [hrun, lookup_of_entry _ _ _ (hchanged.mpr hchange) (hindex ▸ hE), State.setSources_sources, set_modify,
      if_neg hlen']
    rfl

end Proofs

end Sys2Proof
end

section
/-! Proofs of the statements on the configuration (spec/46_config.md): which word of which record an address names
(R271), the fields a write of that word stores (R272 to R274), and the addresses that name no register (R275). -/

namespace Sys2Proof

namespace Machine

/-! ### The register map (R271) -/

section RegisterMap

variable {s : State} {i : Nat} (v : Word)

/-- Word `k` of instrument `i` stands at `0x1000 + 8 i + k` (R272). -/
theorem writeRegister_instrument (hi : i < s.ni) (k : Fin 8) :
    writeRegister (0x1000 + 8 * i + k) v s = s.modifyInstrument i (writeInstrument k v) := by
  have hrecord : (0x1000 + 8 * i + k - 0x1000) / 8 = i := by omega
  have hword : (0x1000 + 8 * i + k - 0x1000) % 8 = k := by omega
  rw [writeRegister, if_neg (by omega), if_pos (by omega), hrecord, hword]

/-- Word `k` of source `i` stands at `0x2000 + 16 i + k`, above the 256 instruments there can be (R273). -/
theorem writeRegister_source (hni : s.ni ≤ 256) (hi : i < s.ns) (k : Fin 16) :
    writeRegister (0x2000 + 16 * i + k) v s = s.modifySource i (writeSource k v) := by
  have hrecord : (0x2000 + 16 * i + k - 0x2000) / 16 = i := by omega
  have hword : (0x2000 + 16 * i + k - 0x2000) % 16 = k := by omega
  rw [writeRegister, if_neg (by omega), if_neg (by omega), if_pos (by omega), hrecord, hword]

/-- Word `k` of table entry `i` stands at `0x4000 + 2 i + k`, above the 256 sources there can be (R274). -/
theorem writeRegister_table (hni : s.ni ≤ 256) (hns : s.ns ≤ 256) (hi : i < s.nl) (k : Fin 2) :
    writeRegister (0x4000 + 2 * i + k) v s = s.modifyLut i (writeLut k v) := by
  have hrecord : (0x4000 + 2 * i + k - 0x4000) / 2 = i := by omega
  have hword : (0x4000 + 2 * i + k - 0x4000) % 2 = k := by omega
  rw [writeRegister, if_neg (by omega), if_neg (by omega), if_neg (by omega), if_pos (by omega), hrecord, hword]

/-- An address that is neither `CTRL` nor in one of the three tables names no register (R275). -/
theorem writeRegister_unmapped {a : Nat} (hctrl : a ≠ 0) (hinst : ¬ (0x1000 ≤ a ∧ a < 0x1000 + 8 * s.ni))
    (hsrc : ¬ (0x2000 ≤ a ∧ a < 0x2000 + 16 * s.ns)) (hlut : ¬ (0x4000 ≤ a ∧ a < 0x4000 + 2 * s.nl)) :
    writeRegister a v s = s := by
  rw [writeRegister, if_neg hctrl, if_neg hinst, if_neg hsrc, if_neg hlut]

end RegisterMap

/-! ### `WRREG` on a register that is there (R270) -/

section Written

variable {s : State} {i : Nat} {a : Half16} (v : Word)

/-- `WRREG` on a word of an instrument replaces that one record (R272). -/
theorem exec_wrreg_instrument {I : Instrument} (hI : s.instruments[i]? = some I) (k : Fin 8)
    (ha : a.toNat = 0x1000 + 8 * i + k) :
    exec (.wrreg a v) s = .next { s with instruments := s.instruments.set i (writeInstrument k v I) } := by
  obtain ⟨hi, -⟩ := List.getElem?_eq_some_iff.mp hI
  rw [exec, execWrreg, ha, writeRegister_instrument v hi, State.modifyInstrument, modify_of_getElem? _ hI]
  rfl

/-- `WRREG` on a word of a source replaces that one record (R273). -/
theorem exec_wrreg_source {S : Source} (hni : s.ni ≤ 256) (hS : s.sources[i]? = some S) (k : Fin 16)
    (ha : a.toNat = 0x2000 + 16 * i + k) :
    exec (.wrreg a v) s = .next { s with sources := s.sources.set i (writeSource k v S) } := by
  obtain ⟨hi, -⟩ := List.getElem?_eq_some_iff.mp hS
  rw [exec, execWrreg, ha, writeRegister_source v hni hi, State.modifySource, modify_of_getElem? _ hS]
  rfl

/-- `WRREG` on a word of a table entry replaces that one entry (R274). -/
theorem exec_wrreg_table {E : LutEntry} (hni : s.ni ≤ 256) (hns : s.ns ≤ 256) (hE : s.lut[i]? = some E) (k : Fin 2)
    (ha : a.toNat = 0x4000 + 2 * i + k) :
    exec (.wrreg a v) s = .next { s with lut := s.lut.set i (writeLut k v E) } := by
  obtain ⟨hi, -⟩ := List.getElem?_eq_some_iff.mp hE
  rw [exec, execWrreg, ha, writeRegister_table v hni hns hi, State.modifyLut, modify_of_getElem? _ hE]
  rfl

end Written

/-- The stored bucket count is the one byte of that value (R42, R273). -/
theorem bucketCountOf_eq {b n : Byte} (h : n.toNat = min (max b.toNat 1) 128) : bucketCountOf b = n :=
  BitVec.eq_of_toNat_eq ((bucketCountOf_toNat b).trans h.symm)

end Machine

namespace Proofs

open Machine

/-- Settles O53: word `k` of the record is written, and each clause is one row of R272. -/
theorem wrregWritesInstrument : Obligations.WrregWritesInstrument := by
  intro s a v i I _ hI
  have row := exec_wrreg_instrument (a := a) v hI
  exact ⟨row 0, row 1, row 2, row 3, row 4, row 5, row 6, row 7⟩

/-- Settles O54: word `k` of the record is written, and each clause is one row of R273; in word 14 the count is
given by its value. -/
theorem wrregWritesSource : Obligations.WrregWritesSource := by
  intro s a v k S hni _ hS
  have row := exec_wrreg_source (a := a) v hni hS
  have bucketRow (ha : a.toNat = 0x2000 + 16 * k + 14) (n : Byte)
      (hn : n.toNat = min (max (v.extractLsb' 0 8).toNat 1) 128) :
      exec (.wrreg a v) s =
        .next { s with sources := s.sources.set k { S with nb := n, lutBase := v.extractLsb' 8 16 } } := by
    obtain rfl : bucketCountOf (lowByte v) = n := bucketCountOf_eq hn
    exact row 14 ha
  exact ⟨row 0, row 1, row 2, row 3, row 4, row 5, row 6, row 7, row 8, row 9, row 10, row 11, row 12, row 13,
    bucketRow, row 15⟩

/-- Settles O55: each clause is one row of R274. -/
theorem wrregWritesTable : Obligations.WrregWritesTable := by
  intro s a v e E hni hns hE
  have row := exec_wrreg_table (a := a) v hni hns hE
  exact ⟨row 0, row 1⟩

/-- Settles O56: the address is neither `CTRL` nor in a table. -/
theorem wrregUnmappedIsNoOp : Obligations.WrregUnmappedIsNoOp := by
  intro s a v ha hinst hsrc hlut
  have hctrl : a.toNat ≠ 0 := fun h => ha (BitVec.eq_of_toNat_eq h)
  exact congrArg Host.Outcome.next (writeRegister_unmapped v hctrl hinst hsrc hlut)

end Proofs

end Sys2Proof
end

section
/-! Proofs of the statements on events, reset and start-up (spec/60_exceptions.md, spec/70_reset_and_hazards.md): the
order of a tie (R297), that every step completes (R290), what the reset input does (R320), and what the block
holds right after reset (R321). -/

namespace Sys2Proof

namespace Machine

open Safety

/-! ### Steps that take an event, and every step (R290, R297, R320) -/

/-- A step that takes a tie is the swap, and leaves the word as what arrives next (R297). -/
theorem step_of_tie {s : State} {w : Word} {rest : List Input} (hin : s.inputs = .tickAndWord w :: rest) :
    step s = .next (tickEvent (s.setInputs (.word w :: rest))) := by
  simp only [step, takeInput, hin]

/-- A step that takes the reset input is that reset (R320). -/
theorem step_of_reset {s : State} {rest : List Input} (hin : s.inputs = .reset :: rest) :
    step s = .next (resetInput (s.setInputs rest)) := by
  simp only [step, takeInput, hin]

/-- Either what the step takes is all it does, or it runs a command, and every command completes (R290). -/
theorem step_completes (s : State) : Completes (step s) := by
  unfold step
  cases takeInput s with
  | done t => exact ⟨t, rfl⟩
  | command i t => exact exec_completes i t

/-! ### Reset values (R321) -/

/-- The reset input writes every piece of state anew: each table at its old size, filled with its reset record. -/
theorem resetInput_eq (s : State) :
    resetInput s =
      { s with
        voices := List.replicate s.nv Voice.reset
        ctrl := Ctrl.reset
        live := false
        buffer := []
        instruments := List.replicate s.ni Instrument.reset
        sources := List.replicate s.ns Source.reset
        lut := List.replicate s.nl LutEntry.reset
        openPacket := [] } := rfl

section ResetRecords

variable {p : Config.Params}

theorem eq_reset_of_mem_voices {V : Voice} (h : V ∈ (State.resetOf p).voices) : V = Voice.reset :=
  List.eq_of_mem_replicate h

theorem eq_reset_of_mem_instruments {I : Instrument} (h : I ∈ (State.resetOf p).instruments) : I = Instrument.reset :=
  List.eq_of_mem_replicate h

theorem eq_reset_of_mem_sources {S : Source} (h : S ∈ (State.resetOf p).sources) : S = Source.reset :=
  List.eq_of_mem_replicate h

theorem eq_reset_of_mem_lut {E : LutEntry} (h : E ∈ (State.resetOf p).lut) : E = LutEntry.reset :=
  List.eq_of_mem_replicate h

end ResetRecords

/-- No voice is active right after reset (R45, R321). -/
theorem statusActive_resetOf (p : Config.Params) : statusActive (State.resetOf p) = List.replicate p.nv false :=
  List.map_replicate

/-- No voice is sounding right after reset (R45, R321). -/
theorem statusSounding_resetOf (p : Config.Params) : statusSounding (State.resetOf p) = List.replicate p.nv false :=
  List.map_replicate

end Machine

namespace Safety

open Machine

/-- The defaults of R9 meet the constraints of R9. -/
theorem default_wf : Config.Params.default.wf := by decide

/-- Reset records are sound, and an empty memory and an empty assembler are, so the parameters decide (R9, R321). -/
theorem inv_resetOf {p : Config.Params} (hp : p.wf) : Inv (State.resetOf p) := by
  obtain ⟨hsizes, hconsts⟩ := hp
  exact
    { constsOk := hconsts
      sizesOk := by simpa only [State.resetOf_nv, State.resetOf_ni, State.resetOf_ns, State.resetOf_nl] using hsizes
      samplesOk := ⟨List.Pairwise.nil, nofun⟩
      voicesOk := fun _ hV => eq_reset_of_mem_voices hV ▸ voiceOk_reset
      bufferOk := ⟨Memory.wf_nil, nofun⟩
      sourcesOk := fun _ hS => eq_reset_of_mem_sources hS ▸ sourceOk_reset
      openPacketOk := openPacketOk_nil }

end Safety

namespace Proofs

open Machine Safety

/-- Settles O10: a tie is the step of a `TICK` with the word behind it, and the word is taken in the swapped state. -/
theorem tickGoesFirstOnTie : Obligations.TickGoesFirstOnTie := by
  intro s w rest hin
  have htie := step_of_tie hin
  have htick := step_of_tick (s := { s with inputs := .tick :: .word w :: rest }) rfl
  refine ⟨htie.trans htick.symm, _, htie, rfl, rfl, fun hopen hop => ?_⟩
  have hempty : (tickEvent (s.setInputs (.word w :: rest))).openPacket = [] := hopen
  rw [step_of_mixframe hempty hop rfl, packetTaken_of_empty hempty]

/-- Settles O14: a step is done with what it takes, or it runs a command. -/
theorem stepAlwaysCompletes : Obligations.StepAlwaysCompletes := step_completes

/-- Settles O13: the step is the reset, with the reset values of R321 and the rest of the inputs. -/
theorem resetInputRestoresResetValues : Obligations.ResetInputRestoresResetValues := by
  intro s rest hin
  rw [step_of_reset hin, resetInput_eq]
  rfl

/-- Settles O57: each table has its size and holds its reset record only; every other piece of state is one value. -/
theorem resetValues : Obligations.ResetValues := by
  refine ⟨fun p => ?anySize, State.resetOf_nv _, State.resetOf_ni _, State.resetOf_ns _, State.resetOf_nl _, rfl⟩
  exact ⟨State.resetOf_nv p, State.resetOf_ni p, State.resetOf_ns p, State.resetOf_nl p, State.resetOf_consts p,
    fun _ => eq_reset_of_mem_voices, rfl, rfl, rfl, Memory.read_nil, fun _ => eq_reset_of_mem_instruments,
    fun _ => eq_reset_of_mem_sources, fun _ => eq_reset_of_mem_lut, rfl, rfl,
    statusActive_resetOf p, statusSounding_resetOf p, rfl⟩

/-- Settles O58: the parameters are all that is left to check, and the defaults of R9 meet it. -/
theorem resetIsSound : Obligations.ResetIsSound := ⟨fun _ => inv_resetOf, inv_resetOf default_wf⟩

end Proofs

end Sys2Proof
end
